-- ==== Sys2Proof/Word.lean ====
section
/-!
DEFINITION. The word types of the block, each an unsigned bit vector of the width that spec/00_scope.md R4 fixes;
bit `i` of a value has weight `2 ^ i` in all of them (R5).
-/
namespace Sys2Proof

/-- GS's Block64 (00_scope.md R4 `BLOCK_W`, R8). -/
abbrev Block := BitVec 64

/-- A master key, the content of `KEY` (R4 `KEY_W`). -/
abbrev MasterKey := BitVec 64

/-- Half of a block (R4 `HALF_W`). -/
abbrev HalfBlock := BitVec 32

/-- A round key (R4 `RK_W`). -/
abbrev RoundKey := BitVec 48

/-- One S-box group of the substitution stage (R4 `NGROUPS`). -/
abbrev SboxGroup := BitVec 6

/-- One result of an S-box lookup (10_state.md R22). -/
abbrev Nibble := BitVec 4

/-- A byte of a text block (20_memory.md R30). -/
abbrev Byte := BitVec 8

/-- A command word in the format `C66`: `op` in bits 65:64, `data` in bits 63:0 (30_encoding.md R42). -/
abbrev CommandWord := BitVec 66

/-- A response word in the format `R66`: `status` in bits 65:64, `data` in bits 63:0 (30_encoding.md R45). -/
abbrev ResponseWord := BitVec 66

end Sys2Proof
end

