-- ==== Sys2Proof/Machine/KeySchedule.lean ====
section
/-!
DEFINITION. The part `round_key_schedule` (40_key_schedule.md).
-/
namespace Sys2Proof.Machine

/-- `KS(K, i) = (K >> i)[47:0]`, the round key of round `i` in 0..15 (40_key_schedule.md R60; ports R61). -/
def ks (key : MasterKey) (i : Fin 16) : RoundKey := (key >>> i.val).extractLsb' 0 48

/-- The sixteen round indices in the order ENC uses them, 0 to 15 (44_engine.md R110); DEC uses the reverse
(R111). -/
def roundOrder : List (Fin 16) := [0, 1, 2, 3, 4, 5, 6, 7, 8, 9, 10, 11, 12, 13, 14, 15]

end Sys2Proof.Machine
end

