-- ==== Sys2Proof/Config.lean ====
section
/-!
DEFINITION. What an implementation fixes and the spec leaves open: the three tables (00_scope.md R4).
`LAT`, the other open parameter, has no place in an untimed model (70_reset_and_hazards.md R156).
-/
namespace Sys2Proof

/-- Well-formed tables `(ETAB, PTAB, STAB)` (10_state.md R20 to R23), and no others: an entry `t` of `ETAB` or
`PTAB`, an integer in 1..32, is held as the `Fin 32` whose value is `t - 1` (`etabEntry`, `ptabEntry` of
Machine/Tables.lean give `t` back), so that an entry outside 1..32 cannot be written down. -/
structure Tables where
  etab : Vector (Fin 32) 48
  ptab : Vector (Fin 32) 32
  stab : Vector (Vector Nibble 16) 4
  deriving DecidableEq, Repr, Inhabited

/-- The hardware's tables. Their contents are in no source (91_not_in_source.md N1, 93_implementation_defined.md
U1), so this constant has no body: nothing can be proved of it but what holds for all well-formed tables.
See log 6. -/
opaque Config.tables : Tables

end Sys2Proof
end

