-- ==== Sys2Proof/Syntax.lean ====
section
/-!
DEFINITION. The commands of the engine, its responses, and the host actions of a run.
-/
namespace Sys2Proof

/-- The four commands of spec/opcode_table.json (30_encoding.md R43), each with its whole 64-bit operand (R44). -/
inductive Instr where
  /-- Load the master key (44_engine.md R102). -/
  | ldkey (data : MasterKey)
  /-- Encrypt one block (R103). -/
  | enc (data : Block)
  /-- Decrypt one block (R104). -/
  | dec (data : Block)
  /-- The reserved opcode; the operand is ignored (R105). -/
  | rsvd (data : Block)
  deriving DecidableEq, Repr

/-- The status codes that the engine produces; code `11` is none of them (30_encoding.md R46, U8). -/
inductive Status where
  | ok
  | errNoKey
  | errOp
  deriving DecidableEq, Repr

/-- A response: `rsp_status` and `rsp_data` (30_encoding.md R45). -/
structure Response where
  status : Status
  data : Block
  deriving DecidableEq, Repr

/-- `DIR`: 0 encrypting, 1 decrypting (10_state.md R15). -/
inductive Dir where
  | enc
  | dec
  deriving DecidableEq, Repr

/-- What a run is a list of: commands and resets (70_reset_and_hazards.md R158, 30_encoding.md R49). -/
inductive HostAction where
  | command (i : Instr)
  | reset
  deriving DecidableEq, Repr

end Sys2Proof
end

