-- ==== Sys2Proof/WellFormed.lean ====
section
/-!
DEFINITION. Which tables and which commands have a meaning.
-/
namespace Sys2Proof

/-- Candidate tables as plain integers, before any check. -/
structure RawTables where
  etab : List Nat
  ptab : List Nat
  stab : List (List Nat)
  deriving DecidableEq, Repr

/-- `ETAB` has exactly 48 entries, each in 1..32 (10_state.md R20, R23). -/
def RawTables.etabOk (r : RawTables) : Bool :=
  r.etab.length == 48 && r.etab.all fun t => 1 ≤ t && t ≤ 32

/-- `PTAB` has exactly 32 entries, each in 1..32 (10_state.md R21, R23). -/
def RawTables.ptabOk (r : RawTables) : Bool :=
  r.ptab.length == 32 && r.ptab.all fun t => 1 ≤ t && t ≤ 32

/-- `STAB` has exactly 4 rows of 16 entries, each in 0..15 (10_state.md R22, R23). -/
def RawTables.stabOk (r : RawTables) : Bool :=
  r.stab.length == 4 && r.stab.all fun row => row.length == 16 && row.all fun v => v ≤ 15

/-- The well-formedness of a triple of tables (10_state.md R23). -/
def RawTables.wellFormed (r : RawTables) : Bool :=
  r.etabOk && r.ptabOk && r.stabOk

/-- Every command is well-formed: "No value of `data` is illegal for any opcode" (30_encoding.md R48), and the
operand's width is its type. -/
def Instr.wellFormed : Instr → Bool
  | .ldkey _ => true
  | .enc _ => true
  | .dec _ => true
  | .rsvd _ => true

end Sys2Proof
end

