-- ==== Sys2Proof/Machine/Tables.lean ====
section
/-!
DEFINITION. Reading the three tables, and building them from plain integers.
-/
namespace Sys2Proof.Machine

/-- `ETAB[i]`, an integer in 1..32 (10_state.md R20). -/
def etabEntry (t : Tables) (i : Fin 48) : Nat := t.etab[i].val + 1

/-- `PTAB[i]`, an integer in 1..32 (10_state.md R21). -/
def ptabEntry (t : Tables) (i : Fin 32) : Nat := t.ptab[i].val + 1

/-- `STAB[row][col]` (10_state.md R22). -/
def stabEntry (t : Tables) (row : Fin 4) (col : Fin 16) : Nibble := t.stab[row][col]

/-- The list's first `n` entries as a vector, `d` standing in where the list is shorter. -/
def vectorOfList {α : Type} (n : Nat) (d : α) (l : List α) : Vector α n :=
  ⟨((List.range n).map fun i => l.getD i d).toArray, by simp⟩

/-- A table entry `t` in 1..32 in the form `Tables` holds. -/
def selectorOfEntry (t : Nat) : Fin 32 := Fin.ofNat 32 (t - 1)

/-- The tables that plain integers stand for; ones that are not well-formed are refused, never clamped or reduced
(10_state.md R23, 92_eei_decisions.md D13). -/
def tablesOfRaw (r : RawTables) : Option Tables :=
  if r.wellFormed then
    some
      { etab := vectorOfList 48 0 (r.etab.map selectorOfEntry)
        ptab := vectorOfList 32 0 (r.ptab.map selectorOfEntry)
        stab := vectorOfList 4 (vectorOfList 16 0 [])
          (r.stab.map fun row => vectorOfList 16 0 (row.map (BitVec.ofNat 4))) }
  else none

end Sys2Proof.Machine
end

