-- ==== Sys2Proof/Machine/Datapath.lean ====
section
/-!
DEFINITION. The parts `bit_permutation_stage`, `sbox_substitution` and `feistel_round_function`
(41_bit_permutation.md, 42_sbox.md, 43_round_function.md), as functions of the tables.
-/
namespace Sys2Proof.Machine

/-- `BITSEL_n(X, T)[i] = X[32 - T[i]]` (41_bit_permutation.md R70). -/
def bitsel {n : Nat} (x : HalfBlock) (table : Fin n → Nat) : BitVec n :=
  BitVec.ofFnLE fun i => x.getLsbD (32 - table i)

/-- `EXPAND`, 32 bits to 48 (41_bit_permutation.md R71; ports R76). -/
def expand (t : Tables) (x : HalfBlock) : RoundKey := bitsel x (etabEntry t)

/-- `PERMUTE`, 32 bits to 32 (41_bit_permutation.md R72; ports R76). -/
def permute (t : Tables) (w : HalfBlock) : HalfBlock := bitsel w (ptabEntry t)

/-- The initial permutation, the identity on 64 bits, kept as a named stage (41_bit_permutation.md R73,
10_state.md R24). -/
def ip (b : Block) : Block := b

/-- The final permutation, the identity on 64 bits (41_bit_permutation.md R74, 10_state.md R24). -/
def fp (b : Block) : Block := b

/-- Bit `k` of a group as a value of width `w`. -/
def groupBit (w : Nat) (g : SboxGroup) (k : Nat) : BitVec w := (g.extractLsb' k 1).setWidth w

/-- `row = (G[0] << 1) | G[5]` (42_sbox.md R80). -/
def sboxRow (g : SboxGroup) : BitVec 2 := groupBit 2 g 0 <<< 1 ||| groupBit 2 g 5

/-- `col = (G[1] << 3) | (G[2] << 2) | (G[3] << 1) | G[4]` (42_sbox.md R80). -/
def sboxCol (g : SboxGroup) : BitVec 4 :=
  groupBit 4 g 1 <<< 3 ||| groupBit 4 g 2 <<< 2 ||| groupBit 4 g 3 <<< 1 ||| groupBit 4 g 4

/-- `SBOX6(G) = STAB[row mod 4][col mod 16]` (42_sbox.md R80). -/
def sbox6 (t : Tables) (g : SboxGroup) : Nibble :=
  stabEntry t (Fin.ofNat 4 (sboxRow g).toNat) (Fin.ofNat 16 (sboxCol g).toNat)

/-- Group `g` of the mixed value, `Z[6g+5 : 6g]` (42_sbox.md R81). -/
def sboxGroup (z : RoundKey) (g : Nat) : SboxGroup := z.extractLsb' (6 * g) 6

/-- `SUBST(Z) = S7 || S6 || S5 || S4 || S3 || S2 || S1 || S0`, `Sg = SBOX6(Z[6g+5:6g])` (42_sbox.md R81;
ports R83). -/
def subst (t : Tables) (z : RoundKey) : HalfBlock :=
  sbox6 t (sboxGroup z 7) ++ sbox6 t (sboxGroup z 6) ++ sbox6 t (sboxGroup z 5) ++ sbox6 t (sboxGroup z 4)
    ++ sbox6 t (sboxGroup z 3) ++ sbox6 t (sboxGroup z 2) ++ sbox6 t (sboxGroup z 1) ++ sbox6 t (sboxGroup z 0)

/-- `MIX(Y, Kr) = Y xor Kr` (43_round_function.md R90). -/
def mix (y kr : RoundKey) : RoundKey := y ^^^ kr

/-- `FROUND(H, Kr)`: expand, mix, substitute, permute (43_round_function.md R91; ports R92). -/
def fround (t : Tables) (h : HalfBlock) (kr : RoundKey) : HalfBlock :=
  permute t (subst t (mix (expand t h) kr))

end Sys2Proof.Machine
end

