-- ==== Sys2Proof/Machine/Operands.lean ====
section
/-!
DEFINITION. How the 64-bit operand becomes the two halves, how the halves become the result, and how a host packs
8 bytes into an operand.
-/
namespace Sys2Proof.Machine

/-- The high half of a block, GS's "left" (00_scope.md R8). -/
def highHalf (b : Block) : HalfBlock := b.extractLsb' 32 32

/-- The low half of a block, GS's "right" (00_scope.md R8). -/
def lowHalf (b : Block) : HalfBlock := b.extractLsb' 0 32

/-- The pair `(L, R)` loaded at ACCEPT: high and low half for ENC (44_engine.md R103), low and high half for DEC
(R104). The operand passes the initial permutation first. -/
def splitBlock : Dir → Block → HalfBlock × HalfBlock
  | .enc, b => (highHalf (ip b), lowHalf (ip b))
  | .dec, b => (lowHalf (ip b), highHalf (ip b))

/-- The result of FINISH: `FP(R || L)` for ENC, `FP(L || R)` for DEC (44_engine.md R108). -/
def joinHalves : Dir → HalfBlock × HalfBlock → Block
  | .enc, (l, r) => fp (r ++ l)
  | .dec, (l, r) => fp (l ++ r)

/-- `B = byte_0 + 2^8*byte_1 + ... + 2^56*byte_7`, the packing of a text block (20_memory.md R30) and of a textual
key (R31), which the host does. -/
def packBytes (bytes : Vector Byte 8) : Block :=
  bytes[7] ++ bytes[6] ++ bytes[5] ++ bytes[4] ++ bytes[3] ++ bytes[2] ++ bytes[1] ++ bytes[0]

/-- Byte `c` of a block, bits `8c+7 : 8c` (20_memory.md R30). -/
def byteOf (b : Block) (c : Nat) : Byte := b.extractLsb' (8 * c) 8

/-- The inverse mapping, which "must exactly recover the original bytes" (20_memory.md R30). -/
def unpackBytes (b : Block) : Vector Byte 8 :=
  #v[byteOf b 0, byteOf b 1, byteOf b 2, byteOf b 3, byteOf b 4, byteOf b 5, byteOf b 6, byteOf b 7]

end Sys2Proof.Machine
end

