-- ==== Sys2Proof/Machine/Cipher.lean ====
section
/-!
DEFINITION. The rounds, and the functions ENCODE and DECODE (44_engine.md section 4).
-/
namespace Sys2Proof.Machine

/-- One round on `(L, R)` with round key `kr`: R106 when encrypting, R107 when decrypting. Both halves are written
together from the values before (70_reset_and_hazards.md R155). -/
def roundHalves (t : Tables) (kr : RoundKey) : Dir → HalfBlock × HalfBlock → HalfBlock × HalfBlock
  | .enc, (l, r) => (r, l ^^^ fround t r kr)
  | .dec, (l, r) => (r ^^^ fround t l kr, l)

/-- The rounds with the indices of a list, the first index first. -/
def rounds (t : Tables) (key : MasterKey) (dir : Dir) (order : List (Fin 16)) (p : HalfBlock × HalfBlock) :
    HalfBlock × HalfBlock :=
  order.foldl (fun p r => roundHalves t (ks key r) dir p) p

/-- The order of the round indices: 0 to 15 for ENC, 15 to 0 for DEC (44_engine.md R110, R111). -/
def indexOrder : Dir → List (Fin 16)
  | .enc => roundOrder
  | .dec => roundOrder.reverse

/-- `ENCODE` (44_engine.md R110) and `DECODE` (R111): split, sixteen rounds, join. -/
def cipher (t : Tables) (dir : Dir) (key : MasterKey) (b : Block) : Block :=
  joinHalves dir (rounds t key dir (indexOrder dir) (splitBlock dir b))

/-- `ENCODE(K, P)` (44_engine.md R110). -/
def encodeBlock (t : Tables) (key : MasterKey) (p : Block) : Block := cipher t .enc key p

/-- `DECODE(K, C)` (44_engine.md R111). -/
def decodeBlock (t : Tables) (key : MasterKey) (c : Block) : Block := cipher t .dec key c

/-- The classical form of decode: the encode datapath with the round keys in reverse order (44_engine.md R114). -/
def decodeClassical (t : Tables) (key : MasterKey) (c : Block) : Block :=
  joinHalves .enc (rounds t key .enc roundOrder.reverse (splitBlock .enc c))

/-- What a command answers and which key is loaded after it, given the key before it: the functional reading of
44_engine.md R102 to R105. -/
def answer (t : Tables) (key : Option MasterKey) : Instr → Response × Option MasterKey
  | .ldkey k => (⟨.ok, 0⟩, some k)
  | .enc p =>
    match key with
    | some k => (⟨.ok, encodeBlock t k p⟩, key)
    | none => (⟨.errNoKey, 0⟩, key)
  | .dec c =>
    match key with
    | some k => (⟨.ok, decodeBlock t k c⟩, key)
    | none => (⟨.errNoKey, 0⟩, key)
  | .rsvd _ => (⟨.errOp, 0⟩, key)

/-- The responses to a list of commands, one each and in order (20_memory.md R34), and the key left loaded. -/
def answers (t : Tables) : Option MasterKey → List Instr → List Response × Option MasterKey
  | key, [] => ([], key)
  | key, i :: rest =>
    let a := answer t key i
    let b := answers t a.2 rest
    (a.1 :: b.1, b.2)

end Sys2Proof.Machine
end

