-- ==== Sys2Proof/Decode.lean ====
section
/-!
DEFINITION. The command word `C66` and the response word `R66`: decoders, then the encoders, and the host's two
entry points over a table row's bits.
-/
namespace Sys2Proof

/-- `op`, bits 65:64 of a command word (30_encoding.md R42). -/
def commandOp (w : CommandWord) : BitVec 2 := w.extractLsb' 64 2

/-- `data`, bits 63:0 of a command word (30_encoding.md R42), used raw (R44). -/
def commandData (w : CommandWord) : Block := w.extractLsb' 0 64

/-- The decoder looks at `op` only and is total: every 66-bit word is one of the four (30_encoding.md R43). -/
def decode (w : CommandWord) : Instr :=
  if commandOp w = 0b00 then .ldkey (commandData w)
  else if commandOp w = 0b01 then .enc (commandData w)
  else if commandOp w = 0b10 then .dec (commandData w)
  else .rsvd (commandData w)

/-- Why a number is no word of the block's two formats. -/
inductive DecodeError where
  /-- The number has a bit above bit 65; the command port has 66 wires (30_encoding.md R42). -/
  | widerThanC66
  /-- A response word with status `11`, which is never produced and which a decoder refuses
  (30_encoding.md R46, 93_implementation_defined.md U8). -/
  | reservedStatus
  deriving DecidableEq, Repr

/-- A number as a command word; one that does not fit the 66 wires of the port is rejected. -/
def commandWord (n : Nat) : Except DecodeError CommandWord :=
  if n < 2 ^ 66 then .ok (BitVec.ofNat 66 n) else .error .widerThanC66

/-- The opcode of a command (30_encoding.md R43). -/
def opcode : Instr → BitVec 2
  | .ldkey _ => 0b00
  | .enc _ => 0b01
  | .dec _ => 0b10
  | .rsvd _ => 0b11

/-- The operand of a command (30_encoding.md R44). -/
def operandOf : Instr → Block
  | .ldkey data => data
  | .enc data => data
  | .dec data => data
  | .rsvd data => data

/-- The command word `op || data` (30_encoding.md R42, R49). -/
def encode (i : Instr) : CommandWord := opcode i ++ operandOf i

/-- The code of a status (30_encoding.md R46). -/
def statusCode : Status → BitVec 2
  | .ok => 0b00
  | .errNoKey => 0b01
  | .errOp => 0b10

/-- The response word `status || data` (30_encoding.md R45). -/
def encodeResponse (r : Response) : ResponseWord := statusCode r.status ++ r.data

/-- `status`, bits 65:64 of a response word (30_encoding.md R45). -/
def responseCode (w : ResponseWord) : BitVec 2 := w.extractLsb' 64 2

/-- `data`, bits 63:0 of a response word (30_encoding.md R45). -/
def responseData (w : ResponseWord) : Block := w.extractLsb' 0 64

/-- A response word read back; status `11` is refused (30_encoding.md R46, U8). -/
def decodeResponse (w : ResponseWord) : Except DecodeError Response :=
  if responseCode w = 0b00 then .ok ⟨.ok, responseData w⟩
  else if responseCode w = 0b01 then .ok ⟨.errNoKey, responseData w⟩
  else if responseCode w = 0b10 then .ok ⟨.errOp, responseData w⟩
  else .error .reservedStatus

/-- The instruction the decoder reads from a table row's bits `w`. `C66` has one length (30_encoding.md R42), the
block stores no words, and the bits above `nbits` are 0 in `w` itself, so `nbits` says nothing more. -/
def decodeTableWord (_nbits w : Nat) : Option Instr :=
  match commandWord w with
  | .ok cw => some (decode cw)
  | .error _ => none

end Sys2Proof
end

