-- ==== Sys2Proof/Machine/State.lean ====
section
/-!
DEFINITION. The machine's state (10_state.md R10), the host's side of the ports, the reasons a step can stop, and
the state after reset.
-/
namespace Sys2Proof.Machine

/-- `PHASE` (10_state.md R14), with the registers that hold a value in one phase only as fields of that phase, as
R10 directs. -/
inductive Phase where
  /-- No command in progress; the engine can accept one. -/
  | idle
  /-- An ENC or DEC has been accepted: `DIR`, `L`, `R` (R15, R16) and `RND`, the rounds done, 0..16 (R17). -/
  | run (dir : Dir) (l r : HalfBlock) (rnd : Fin 17)
  /-- A response waits in `RSP_STATUS`, `RSP_DATA` (R18). -/
  | done (rsp : Response)
  deriving DecidableEq, Repr

/-- What the host drives on the input ports at one step (30_encoding.md R40). -/
structure PortSample where
  /-- `rst`. -/
  rst : Bool
  /-- `some w` when `cmd_valid = 1`, with `cmd_op = w[65:64]` and `cmd_data = w[63:0]`; `none` when
  `cmd_valid = 0`. -/
  cmd : Option CommandWord
  /-- `rsp_ready`. -/
  rspReady : Bool
  deriving DecidableEq, Repr

/-- The state. `key` and `phase` are the spec's own state, all of it (10_state.md R10); the last three fields are
the model's, the host's side of the ports (log 1, 4, 5). -/
structure State where
  /-- `KEYVALID` and `KEY` folded, as 10_state.md R12 allows: `some k` when `KEYVALID = 1` and `KEY = k`; `none`
  when `KEYVALID = 0`, when `KEY` holds no value. `RK[i]` is `KS(KEY, i)` (R13), read by `State.roundKey`. -/
  key : Option MasterKey
  phase : Phase
  /-- What the host will drive at the coming steps, the next step's sample first (log 1). -/
  inputs : List PortSample
  /-- The command shown at the last step and not accepted at it, which the host must keep showing
  (70_reset_and_hazards.md R154 item 1; log 4). -/
  presented : Option CommandWord
  /-- The responses the host has taken, oldest first (44_engine.md R109; log 5). -/
  received : List Response
  deriving DecidableEq, Repr

/-- Why the machine stops with a fault. -/
inductive Fault where
  /-- Raised by a ROUND step with `KEYVALID = 0`, where no round key has a value (10_state.md R10). No state that
  meets the invariant of R26 (a) is such a state. Safe: the machine stops where no rule applies (log 8). -/
  | roundWithoutKey
  deriving DecidableEq, Repr

/-- Why the machine gives no meaning. -/
inductive Refusal where
  /-- Raised by `exec` for an instruction without a meaning; no arm raises it. Safe. -/
  | notModelled (mnemonic : String)
  /-- Raised by a step at which the host changes or withdraws a command that is not accepted yet: "a model has no
  step for such a host" (70_reset_and_hazards.md R154 item 1, 93_implementation_defined.md U6). Safe (log 4). -/
  | unstableHost
  deriving DecidableEq, Repr

/-- Right after reset (10_state.md R25): `KEYVALID = 0`, `PHASE = IDLE`, every other register without a value. The
host has driven nothing and received nothing. -/
def State.reset : State :=
  { key := none, phase := .idle, inputs := [], presented := none, received := [] }

end Sys2Proof.Machine
end

