-- ==== Sys2Proof/Machine/Flags.lean ====
section
/-!
DEFINITION. The flag-like bits of the block (10_state.md R28): `KEYVALID` with the registers it governs, and `DIR`.
-/
namespace Sys2Proof.Machine

/-- `KEYVALID` (10_state.md R12). -/
def State.keyValid (s : State) : Bool := s.key.isSome

/-- `RK[i] = KS(KEY, i)` while `KEYVALID = 1`; no value while it is 0 (10_state.md R13, 40_key_schedule.md R63). -/
def State.roundKey (s : State) (i : Fin 16) : Option RoundKey := s.key.map fun k => ks k i

/-- `KEY <- k`, `KEYVALID <- 1`, and with them every `RK[i]`, in one step (44_engine.md R102, 10_state.md R13). -/
def loadKey (k : MasterKey) (s : State) : State := { s with key := some k }

/-- The bit that `DIR` holds (10_state.md R15). -/
def dirBit : Dir → BitVec 1
  | .enc => 0
  | .dec => 1

/-- The round key index of a ROUND step: `RND` when encrypting, `15 - RND` when decrypting (44_engine.md R106,
R107). -/
def roundIndex (dir : Dir) (rnd : Nat) (h : rnd < 16) : Fin 16 :=
  match dir with
  | .enc => ⟨rnd, h⟩
  | .dec => ⟨15 - rnd, by omega⟩

end Sys2Proof.Machine
end

