-- ==== Sys2Proof/Machine/Ops.lean ====
section
/-!
DEFINITION. The operations that commands and steps share: the ports, accepting a command, answering, raising an
error and returning from it, and reset.
-/
namespace Sys2Proof.Machine

/-- What the host drives at the next step. After its list has ended the host keeps showing what it showed, asserts
no reset and takes every response (log 2). -/
def State.sample (s : State) : PortSample :=
  match s.inputs with
  | d :: _ => d
  | [] => { rst := false, cmd := s.presented, rspReady := true }

/-- The step has sampled the ports: the sample is used up, and the command it showed, if any, is now one that the
host has presented. -/
def State.sampled (s : State) : State := { s with inputs := s.inputs.tail, presented := s.sample.cmd }

/-- The host keeps `cmd_valid`, `cmd_op` and `cmd_data` unchanged until the command is accepted
(30_encoding.md R41, 70_reset_and_hazards.md R154 item 1). -/
def State.hostStable (s : State) : Bool :=
  s.presented.isNone || s.sample.cmd == s.presented

/-- The presented command is consumed by ACCEPT (30_encoding.md R41). -/
def State.commandTaken (s : State) : State := { s with presented := none }

/-- `cmd_ready`: 1 exactly when `PHASE = IDLE` and `rst = 0` (30_encoding.md R40). -/
def State.cmdReady (s : State) : Bool :=
  match s.phase with
  | .idle => !s.sample.rst
  | .run _ _ _ _ => false
  | .done _ => false

/-- `rsp_valid`: 1 exactly when `PHASE = DONE` and `rst = 0` (30_encoding.md R40, R47). -/
def State.rspValid (s : State) : Bool :=
  match s.phase with
  | .idle => false
  | .run _ _ _ _ => false
  | .done _ => !s.sample.rst

/-- The waiting response, if any (10_state.md R18). -/
def State.pending (s : State) : Option Response :=
  match s.phase with
  | .idle => none
  | .run _ _ _ _ => none
  | .done rsp => some rsp

/-- `rsp_status` and `rsp_data` as a response word when `rsp_valid = 1`; no observation otherwise
(30_encoding.md R45, R47, 93_implementation_defined.md U5). -/
def State.rspBus (s : State) : Option ResponseWord :=
  if s.rspValid then s.pending.map encodeResponse else none

/-- A command is accepted only in IDLE; in the other phases nothing is accepted and the command is ignored
(30_encoding.md R41, 44_engine.md R101). -/
def accepting (s : State) (effect : State → State) : Host.Outcome State Fault Refusal :=
  match s.phase with
  | .idle => .next (effect s)
  | .run _ _ _ _ => .next s
  | .done _ => .next s

/-- `respond(status, data)`: `RSP_STATUS <- status; RSP_DATA <- data; PHASE <- DONE` (44_engine.md R101). -/
def respond (status : Status) (data : Block) (s : State) : State :=
  { s with phase := .done { status := status, data := data } }

/-- Entry into an error: `raise ERR_x` is `respond(ERR_x, 0)`, and nothing else changes (60_exceptions.md R136). -/
def raiseError (code : Status) (s : State) : State := respond code 0 s

/-- DELIVER, which is also the return from an error (60_exceptions.md R137): the host receives the response,
`PHASE <- IDLE`, nothing else changes (44_engine.md R109). -/
def deliver (rsp : Response) (s : State) : State :=
  { s with phase := .idle, received := s.received ++ [rsp] }

/-- RESET: `KEYVALID <- 0`, `PHASE <- IDLE`, and the other registers hold no value (70_reset_and_hazards.md R151).
A command in RUN or a response in DONE is dropped without a response (R152). -/
def resetEngine (s : State) : State := { s with key := none, phase := .idle }

/-- `PHASE <- RUN` with `DIR`, the pair `(L, R)` and `RND` written together (10_state.md R15 to R17,
70_reset_and_hazards.md R155). -/
def setRun (dir : Dir) (halves : HalfBlock × HalfBlock) (rnd : Fin 17) (s : State) : State :=
  { s with phase := .run dir halves.1 halves.2 rnd }

/-- ACCEPT of ENC or DEC with a key: load `L` and `R`, `RND <- 0`, `DIR`, `PHASE <- RUN`
(44_engine.md R103, R104). -/
def startRun (dir : Dir) (data : Block) (s : State) : State := setRun dir (splitBlock dir data) 0 s

/-- ACCEPT of a data command: `ERR_NOKEY` when `KEYVALID = 0`, before anything is computed
(44_engine.md R103, R104, 60_exceptions.md R131). -/
def dataCommand (dir : Dir) (data : Block) (s : State) : State :=
  if s.keyValid then startRun dir data s else raiseError .errNoKey s

end Sys2Proof.Machine
end

