-- ==== Sys2Proof/Machine/Commands.lean ====
section
/-!
DEFINITION. The meaning of each command: the ACCEPT step's effect (44_engine.md section 2). The ROUND, FINISH and
DELIVER steps that follow it are in Machine/Engine.lean.
-/
namespace Sys2Proof.Machine

/-- `LDKEY data` (44_engine.md R102). -/
def execLdkey (data : MasterKey) (s : State) : Host.Outcome State Fault Refusal :=
  accepting s fun s => respond .ok 0 (loadKey data s)

/-- `ENC data` (44_engine.md R103). -/
def execEnc (data : Block) (s : State) : Host.Outcome State Fault Refusal :=
  accepting s (dataCommand .enc data)

/-- `DEC data` (44_engine.md R104). -/
def execDec (data : Block) (s : State) : Host.Outcome State Fault Refusal :=
  accepting s (dataCommand .dec data)

/-- `RSVD data`: always `ERR_OP`; the operand is ignored (44_engine.md R105, 60_exceptions.md R132). -/
def execRsvd (_data : Block) (s : State) : Host.Outcome State Fault Refusal :=
  accepting s (raiseError .errOp)

end Sys2Proof.Machine
end

