-- ==== Sys2Proof/Machine/Engine.lean ====
section
/-!
DEFINITION. The steps of the engine after ACCEPT, and one step of the machine (44_engine.md R100), as a function of
the tables.
-/
namespace Sys2Proof.Machine

/-- ROUND (44_engine.md R106, R107), enabled when `RND < 16`. -/
def roundStep (t : Tables) (dir : Dir) (l r : HalfBlock) (rnd : Fin 17) (h : rnd.val < 16) (s : State) :
    Host.Outcome State Fault Refusal :=
  match s.roundKey (roundIndex dir rnd.val h) with
  | none => .fault .roundWithoutKey
  | some kr => .next (setRun dir (roundHalves t kr dir (l, r)) ⟨rnd.val + 1, by omega⟩ s)

/-- FINISH (44_engine.md R108), enabled when `RND = 16`. -/
def finishStep (dir : Dir) (l r : HalfBlock) (s : State) : State := respond .ok (joinHalves dir (l, r)) s

/-- The steps that are enabled without reset (44_engine.md R100), on the state after the ports were sampled; `d` is
the sample. IDLE without a command and DONE without `rsp_ready` wait (70_reset_and_hazards.md R157). -/
def engineStep (t : Tables) (d : PortSample) (s : State) : Host.Outcome State Fault Refusal :=
  match s.phase with
  | .idle =>
    match d.cmd with
    | some w => exec (decode w) s.commandTaken
    | none => .next s
  | .run dir l r rnd =>
    if h : rnd.val < 16 then roundStep t dir l r rnd h s else .next (finishStep dir l r s)
  | .done rsp => if d.rspReady then .next (deliver rsp s) else .next s

/-- One step: sample the ports; reset has priority over everything (60_exceptions.md R135); a host that changes a
command it has presented has no step (70_reset_and_hazards.md R154 item 1); otherwise the enabled step. -/
def stepWith (t : Tables) (s : State) : Host.Outcome State Fault Refusal :=
  if s.sample.rst then .next (resetEngine s.sampled)
  else if s.hostStable then engineStep t s.sample s.sampled
  else .refused .unstableHost

/-- The sample of a step at which the host presents exactly the command word `n` (none where the port has no wires
for `n`) and asserts no reset. -/
def presentWord (d : PortSample) (n : Nat) : PortSample :=
  match commandWord n with
  | .ok w => { d with rst := false, cmd := some w }
  | .error _ => { d with rst := false, cmd := none }

end Sys2Proof.Machine
end

