-- ==== Sys2Proof/Machine/Step.lean ====
section
/-!
DEFINITION. One step of the hardware, and the state from which a step runs one given command.
-/
namespace Sys2Proof.Machine

/-- One step of the machine, with the hardware's own tables (44_engine.md R100). -/
def step (s : State) : Host.Outcome State Fault Refusal := stepWith Config.tables s

/-- `s` with the host presenting the command word `w` at the next step, at which the engine is IDLE, no other
command stands presented and reset is not asserted, so that the step accepts exactly it (30_encoding.md R41).
`C66` has one length, so `nbits` says nothing more. See log 1 for how commands reach the engine. -/
def State.withFetchWord (s : State) (_nbits w : Nat) : State :=
  { s with phase := .idle, presented := none, inputs := presentWord s.sample w :: s.inputs.tail }

end Sys2Proof.Machine
end

