-- ==== Sys2Proof/Machine/Text.lean ====
section
/-!
DEFINITION. The text form of commands and responses (30_encoding.md R49). There is no toolchain; the form is the
spec's for command lists.
-/
namespace Sys2Proof.Machine

/-- A hexadecimal digit, capital letters. -/
def hexDigit (n : Nibble) : Char :=
  if n.toNat < 10 then Char.ofNat (48 + n.toNat) else Char.ofNat (55 + n.toNat)

/-- The 16 hexadecimal digits of a block, most significant first. -/
def hexBlock (b : Block) : List Char :=
  [15, 14, 13, 12, 11, 10, 9, 8, 7, 6, 5, 4, 3, 2, 1, 0].map fun k => hexDigit (b.extractLsb' (4 * k) 4)

/-- The mnemonic of a command. -/
def mnemonicText : Instr → List Char
  | .ldkey _ => ['L', 'D', 'K', 'E', 'Y']
  | .enc _ => ['E', 'N', 'C']
  | .dec _ => ['D', 'E', 'C']
  | .rsvd _ => ['R', 'S', 'V', 'D']

/-- One command of a command list, for example `ENC 0x0011223344556677`. -/
def commandText (i : Instr) : List Char :=
  mnemonicText i ++ [' ', '0', 'x'] ++ hexBlock (operandOf i)

/-- A line of a command list: a command, or the host action `RESET`. -/
def actionText : HostAction → List Char
  | .command i => commandText i
  | .reset => ['R', 'E', 'S', 'E', 'T']

/-- A 66-bit word as `<op digit>_<16 hex digits>`, for example `1_0011223344556677`. -/
def wordText (w : BitVec 66) : List Char :=
  hexDigit ((w.extractLsb' 64 2).setWidth 4) :: '_' :: hexBlock (w.extractLsb' 0 64)

/-- The name of a status (30_encoding.md R46). -/
def statusText : Status → List Char
  | .ok => ['O', 'K']
  | .errNoKey => ['E', 'R', 'R', '_', 'N', 'O', 'K', 'E', 'Y']
  | .errOp => ['E', 'R', 'R', '_', 'O', 'P']

/-- A response as it stands after `->`, for example `OK 0x1AFF6733BEB4EB7D`. -/
def responseText (r : Response) : List Char :=
  statusText r.status ++ [' ', '0', 'x'] ++ hexBlock r.data

end Sys2Proof.Machine
end

