-- ==== Sys2Proof/Safety.lean ====
section
/-!
DEFINITION. What claims about the machine are said in: the invariant of a legal state, the end of a run, hosts that
leave the engine alone, and what a run has accepted.
-/
namespace Sys2Proof.Machine

/-- `n` steps of the machine over given tables, stopping at the first fault or refusal. `Sys2Proof.core.run` is the
one over the hardware's own tables, `Config.tables`. -/
def runWith (t : Tables) : Nat → State → Host.Outcome State Fault Refusal
  | 0, s => .next s
  | n + 1, s =>
    match stepWith t s with
    | .next s' => runWith t n s'
    | .fault r => .fault r
    | .refused r => .refused r

/-- ENC or DEC of a block, by the direction it runs in (44_engine.md R103, R104). -/
def dataInstr : Dir → Block → Instr
  | .enc, b => .enc b
  | .dec, b => .dec b

/-- A response the engine may give: without a result its data is all zeros (30_encoding.md R46). -/
def Response.legal (r : Response) : Bool := r.status == .ok || r.data == 0

/-- `PHASE = RUN` implies `KEYVALID = 1` (10_state.md R26 (a)). -/
def State.runHasKey (s : State) : Bool :=
  match s.phase with
  | .idle => true
  | .run _ _ _ _ => s.keyValid
  | .done _ => true

/-- What every reachable state is like: RUN only with a key (10_state.md R26 (a)), and every response, waiting or
taken, one that the engine may give (R26 (c), 30_encoding.md R46). The other parts of R26 are in the types. -/
abbrev Inv (s : State) : Prop :=
  s.runHasKey = true ∧ (∀ r ∈ s.pending, Response.legal r = true) ∧ ∀ r ∈ s.received, Response.legal r = true

/-- A run has ended: `PHASE = IDLE`, and the host will present no command and assert no reset
(70_reset_and_hazards.md R158). -/
abbrev RunEnded (s : State) : Prop :=
  s.phase = .idle ∧ s.presented = none ∧ ∀ d ∈ s.inputs, d.rst = false ∧ d.cmd = none

/-- In the next `n` steps, none of them an ACCEPT, the host asserts no reset and keeps showing a command once shown
(70_reset_and_hazards.md R154 item 1); `p` is the command it has presented, if any. After its list has
ended a host leaves the engine alone (log 2). -/
def undisturbed : Nat → Option CommandWord → List PortSample → Bool
  | 0, _, _ => true
  | _ + 1, _, [] => true
  | n + 1, p, d :: rest => !d.rst && (p.isNone || d.cmd == p) && undisturbed n d.cmd rest

/-- The command that the next step accepts, if any (44_engine.md R101). -/
def State.acceptsNow (s : State) : Option Instr :=
  if s.cmdReady && s.hostStable then s.sample.cmd.map decode else none

/-- The commands accepted in the next `n` steps, in order. -/
def acceptedIn (t : Tables) : Nat → State → List Instr
  | 0, _ => []
  | n + 1, s =>
    s.acceptsNow.toList ++
      match stepWith t s with
      | .next s' => acceptedIn t n s'
      | .fault _ => []
      | .refused _ => []

/-- What is left of a phase when the values of the data registers are left out. -/
inductive PhaseShape where
  | idle
  | run (dir : Dir) (rnd : Fin 17)
  | done (status : Status)
  deriving DecidableEq, Repr

/-- The shape of a phase. -/
def Phase.shape : Phase → PhaseShape
  | .idle => .idle
  | .run dir _ _ rnd => .run dir rnd
  | .done rsp => .done rsp.status

/-- Two states that agree on everything but data: the same `PHASE`, `DIR`, `RND`, response status and `KEYVALID`,
and a host that drives the same samples but for the operands of its commands (44_engine.md R119). -/
def SameControl (s u : State) : Prop :=
  s.phase.shape = u.phase.shape ∧ s.keyValid = u.keyValid
    ∧ s.presented.map commandOp = u.presented.map commandOp
    ∧ s.inputs.map (fun d => (d.rst, d.cmd.map commandOp, d.rspReady))
      = u.inputs.map (fun d => (d.rst, d.cmd.map commandOp, d.rspReady))

end Sys2Proof.Machine
end

