-- ==== Sys2Proof/Certificates/Slice0/Obligations.lean ====
section
/-!
DEFINITION. The statements for the provers. Where a statement is about `stepWith t` it holds for every well-formed
`t`, as 00_scope.md R4 asks of structural claims; `step` is `stepWith Config.tables`.
-/
open Sys2Proof Sys2Proof.Machine

/-! ### Commands -/

/-- 44_engine.md R102: LDKEY writes `KEY` and `KEYVALID`, with them every round key, answers `OK` with data 0, and
changes nothing else. -/
def Obligations.LdkeyLoadsKeyAndAnswersOk : Prop :=
  ∀ (k : MasterKey) (s : State), s.phase = .idle →
    exec (.ldkey k) s = .next { s with key := some k, phase := .done ⟨.ok, 0⟩ }
    ∧ ∀ i, ({ s with key := some k, phase := .done ⟨.ok, 0⟩ } : State).roundKey i = some (ks k i)

/-- 44_engine.md R103, the ACCEPT of ENC with a key: the high half goes to `L`, the low half to `R`, `RND` is 0,
`DIR` is 0 (encrypting); nothing else changes. -/
def Obligations.EncWithKeyStartsTheRun : Prop :=
  ∀ (b : Block) (s : State) (k : MasterKey), s.phase = .idle → s.key = some k →
    exec (.enc b) s = .next { s with phase := .run .enc (b.extractLsb' 32 32) (b.extractLsb' 0 32) 0 }

/-- 44_engine.md R104, the ACCEPT of DEC with a key: the split is swapped, the low half goes to `L`, the high half
to `R`; `RND` is 0, `DIR` is 1 (decrypting); nothing else changes. -/
def Obligations.DecWithKeyStartsTheRunSwapped : Prop :=
  ∀ (b : Block) (s : State) (k : MasterKey), s.phase = .idle → s.key = some k →
    exec (.dec b) s = .next { s with phase := .run .dec (b.extractLsb' 0 32) (b.extractLsb' 32 32) 0 }

/-- 60_exceptions.md R131: ENC and DEC without a key compute nothing and answer `ERR_NOKEY` with data 0. -/
def Obligations.DataCommandWithoutKeyAnswersErrNokey : Prop :=
  ∀ (b : Block) (s : State), s.phase = .idle → s.key = none →
    exec (.enc b) s = .next { s with phase := .done ⟨.errNoKey, 0⟩ }
    ∧ exec (.dec b) s = .next { s with phase := .done ⟨.errNoKey, 0⟩ }

/-- 44_engine.md R105: RSVD answers `ERR_OP` with data 0, whatever its operand and whether or not a key is loaded,
and changes nothing else. -/
def Obligations.RsvdAnswersErrOp : Prop :=
  ∀ (d : Block) (s : State), s.phase = .idle →
    exec (.rsvd d) s = .next { s with phase := .done ⟨.errOp, 0⟩ }

/-- 30_encoding.md R41, 44_engine.md R101: outside IDLE no command is accepted; a presented one is ignored. That `exec`
answers the unchanged state there is the model's reading (log 10). -/
def Obligations.CommandsOutsideIdleAreIgnored : Prop :=
  ∀ (i : Instr) (s : State), s.phase ≠ .idle → exec i s = .next s

/-- 60_exceptions.md R136, R137: an error has data 0, and once its response is taken the engine is exactly as it was
before the failing command. -/
def Obligations.ErrorsArePreciseAndNotSticky : Prop :=
  ∀ (i : Instr) (s u : State) (rsp : Response), s.phase = .idle → exec i s = .next u → u.pending = some rsp →
    rsp.status ≠ .ok → rsp.data = 0 ∧ deliver rsp u = { s with received := s.received ++ [rsp] }

/-! ### Steps -/

/-- 44_engine.md R101: where a command is accepted, the step is the meaning of the decoded command, on the state
with the sample used up and no command left presented. -/
def Obligations.AcceptStepRunsTheDecodedCommand : Prop :=
  ∀ (s : State) (w : CommandWord) (i : Instr), s.phase = .idle → s.sample.rst = false → s.hostStable = true →
    s.sample.cmd = some w → decode w = i →
    step s = exec i { s with inputs := s.inputs.tail, presented := none }

/-- 44_engine.md R106: ROUND when encrypting uses `RK[RND]`, moves `R` to `L` and writes `L xor FROUND(R, RK[RND])`
to `R`; nothing else changes but the used-up sample. -/
def Obligations.RoundStepWhenEncrypting : Prop :=
  ∀ (t : Tables) (s : State) (l r : HalfBlock) (n : Fin 16) (k : MasterKey),
    s.phase = .run .enc l r n.castSucc → s.key = some k → s.sample.rst = false → s.hostStable = true →
    stepWith t s = .next { s with
      phase := .run .enc r (l ^^^ fround t r (ks k n)) n.succ, inputs := s.inputs.tail, presented := s.sample.cmd }

/-- 44_engine.md R107: ROUND when decrypting uses `RK[15 - RND]`, writes `R xor FROUND(L, RK[15 - RND])` to `L` and
moves the old `L` to `R`; nothing else changes but the used-up sample. -/
def Obligations.RoundStepWhenDecrypting : Prop :=
  ∀ (t : Tables) (s : State) (l r : HalfBlock) (n i : Fin 16) (k : MasterKey), i.val = 15 - n.val →
    s.phase = .run .dec l r n.castSucc → s.key = some k → s.sample.rst = false → s.hostStable = true →
    stepWith t s = .next { s with
      phase := .run .dec (r ^^^ fround t l (ks k i)) l n.succ, inputs := s.inputs.tail, presented := s.sample.cmd }

/-- 44_engine.md R108: FINISH after sixteen rounds answers `OK` with `R || L` when encrypting and `L || R` when
decrypting. -/
def Obligations.FinishJoinsTheHalves : Prop :=
  ∀ (t : Tables) (s : State) (dir : Dir) (l r : HalfBlock), s.phase = .run dir l r 16 → s.sample.rst = false →
    s.hostStable = true →
    stepWith t s = .next { s with
      phase := .done ⟨.ok, match dir with | .enc => r ++ l | .dec => l ++ r⟩
      inputs := s.inputs.tail, presented := s.sample.cmd }

/-- 44_engine.md R109: DELIVER hands the waiting response to the host and goes to IDLE; nothing else changes but the
used-up sample. -/
def Obligations.DeliverHandsOverTheResponse : Prop :=
  ∀ (t : Tables) (s : State) (rsp : Response), s.phase = .done rsp → s.sample.rst = false → s.hostStable = true →
    s.sample.rspReady = true →
    stepWith t s = .next { s with
      phase := .idle, received := s.received ++ [rsp], inputs := s.inputs.tail, presented := s.sample.cmd }

/-- 70_reset_and_hazards.md R157: IDLE without a command and DONE with the host not ready wait, and the response on
the port stays. -/
def Obligations.IdleAndDoneWaitForTheHost : Prop :=
  ∀ (t : Tables) (s : State), s.sample.rst = false → s.hostStable = true →
    (s.phase = .idle → s.sample.cmd = none → stepWith t s = .next s.sampled)
    ∧ ∀ rsp, s.phase = .done rsp → s.sample.rspReady = false →
        stepWith t s = .next s.sampled ∧ s.sampled.pending = some rsp
          ∧ (s.sampled.sample.rst = false → s.sampled.rspBus = s.rspBus)

/-- 70_reset_and_hazards.md R151, R152: reset in any phase, whatever the host drives beside it, forgets the key,
goes to IDLE, accepts nothing and hands over nothing. -/
def Obligations.ResetForgetsKeyAndDropsTheCommand : Prop :=
  ∀ (t : Tables) (s : State), s.sample.rst = true → ∃ u, stepWith t s = .next u
    ∧ u.keyValid = false ∧ u.phase = .idle ∧ (∀ i, u.roundKey i = none) ∧ u.pending = none
    ∧ u.received = s.received ∧ u.inputs = s.inputs.tail ∧ s.cmdReady = false ∧ s.rspValid = false

/-- 10_state.md R25, 30_encoding.md R50: the state after reset, and the outputs at the first sample without reset. -/
def Obligations.ResetStateIsIdleWithoutKey : Prop :=
  State.reset.keyValid = false ∧ State.reset.phase = .idle ∧ (∀ i, State.reset.roundKey i = none)
    ∧ State.reset.pending = none
    ∧ ∀ ds : List PortSample, ({ State.reset with inputs := ds } : State).sample.rst = false →
        ({ State.reset with inputs := ds } : State).cmdReady = true
        ∧ ({ State.reset with inputs := ds } : State).rspValid = false

/-- 70_reset_and_hazards.md R154 item 1, 93_implementation_defined.md U6: a host that changes or withdraws a command
before it is accepted has no step, in any phase, unless it asserts reset (log 4). -/
def Obligations.UnstableHostHasNoStep : Prop :=
  ∀ (t : Tables) (s : State) (w : CommandWord), s.presented = some w → s.sample.cmd ≠ some w →
    s.sample.rst = false → stepWith t s = .refused .unstableHost

/-- 30_encoding.md R40, R45, R47, 10_state.md R27: the output ports. The response bus is observed only while
`rsp_valid = 1`, and in RUN no port shows anything of `L`, `R`, `RND`, `DIR`. -/
def Obligations.OutputPortsFollowThePhase : Prop :=
  ∀ s : State,
    (s.cmdReady = true ↔ s.phase = .idle ∧ s.sample.rst = false)
    ∧ (s.rspValid = true ↔ (∃ rsp, s.phase = .done rsp) ∧ s.sample.rst = false)
    ∧ (∀ rsp, s.phase = .done rsp → s.sample.rst = false →
        s.rspBus = some (statusCode rsp.status ++ rsp.data))
    ∧ (s.rspValid = false → s.rspBus = none)

/-! ### Whole-machine rules -/

/-- 10_state.md R14: the transitions of `PHASE`, and no others; the machine otherwise stays in IDLE or DONE waiting
for the host. -/
def Obligations.PhaseTransitions : Prop :=
  ∀ (t : Tables) (s u : State), stepWith t s = .next u →
    (s.sample.rst = true ∧ u.phase = .idle)
    ∨ (s.sample.rst = false ∧
      match s.phase with
      | .idle =>
        (s.sample.cmd = none ∧ u.phase = .idle)
        ∨ ∃ w, s.sample.cmd = some w ∧
          ((s.keyValid = true ∧ ∃ dir b l r, decode w = dataInstr dir b ∧ u.phase = .run dir l r 0)
          ∨ (s.keyValid = false ∧ ∃ dir b rsp, decode w = dataInstr dir b ∧ u.phase = .done rsp)
          ∨ (∃ d rsp, (decode w = .ldkey d ∨ decode w = .rsvd d) ∧ u.phase = .done rsp))
      | .run dir _ _ n =>
        (∃ l r, ∃ m : Fin 17, n.val < 16 ∧ m.val = n.val + 1 ∧ u.phase = .run dir l r m)
        ∨ (n.val = 16 ∧ ∃ b, u.phase = .done ⟨.ok, b⟩)
      | .done rsp =>
        (s.sample.rspReady = false ∧ u.phase = .done rsp) ∨ (s.sample.rspReady = true ∧ u.phase = .idle))

/-- 10_state.md R11, R12, R26 (d): `KEY` and `KEYVALID` are written by an accepted LDKEY and by reset only. -/
def Obligations.KeyIsWrittenOnlyByLdkeyAndReset : Prop :=
  ∀ (t : Tables) (s u : State), stepWith t s = .next u →
    (s.sample.rst = true ∧ u.key = none)
    ∨ (s.sample.rst = false ∧ s.phase = .idle
        ∧ ∃ w k, s.sample.cmd = some w ∧ decode w = .ldkey k ∧ u.key = some k)
    ∨ (s.sample.rst = false ∧ u.key = s.key
        ∧ ∀ w k, s.phase = .idle → s.sample.cmd = some w → decode w ≠ .ldkey k)

/-- 30_encoding.md R45, R47: the host receives the waiting response at the step at which it takes it, and nothing at
any other step. -/
def Obligations.ResponsesAreReceivedOnlyWhenTaken : Prop :=
  ∀ (t : Tables) (s u : State), stepWith t s = .next u →
    (∃ rsp, s.phase = .done rsp ∧ s.sample.rst = false ∧ s.sample.rspReady = true
      ∧ u.received = s.received ++ [rsp])
    ∨ (u.received = s.received ∧ ¬ (s.rspValid = true ∧ s.sample.rspReady = true))

/-- 10_state.md R26: the invariant of legal states is kept by every step. -/
def Obligations.StepKeepsTheInvariant : Prop :=
  ∀ s u : State, Inv s → step s = .next u → Inv u

/-- The invariant holds right after reset. -/
def Obligations.ResetMeetsTheInvariant : Prop := Inv State.reset

/-- 70_reset_and_hazards.md R157, 44_engine.md R100: in a legal state the machine never faults, and it refuses only
a host that breaks R154 item 1. -/
def Obligations.LegalStatesNeverGetStuck : Prop :=
  ∀ s : State, Inv s →
    (∃ u, step s = .next u)
    ∨ (step s = .refused .unstableHost ∧ s.sample.rst = false ∧ ∃ w, s.presented = some w ∧ s.sample.cmd ≠ some w)

/-- 70_reset_and_hazards.md R157: from a RUN with `RND` rounds done, RUN is left after exactly `16 - RND` ROUND steps
and one FINISH, whatever `rsp_ready` the host drives. -/
def Obligations.RunIsLeftAfterTheRemainingRounds : Prop :=
  ∀ (t : Tables) (s : State) (dir : Dir) (l r : HalfBlock) (n : Fin 17), s.phase = .run dir l r n →
    s.keyValid = true → undisturbed (17 - n.val) s.presented s.inputs = true →
    (∀ j, j ≤ 16 - n.val → ∃ u l' r', ∃ m : Fin 17, runWith t j s = .next u ∧ m.val = n.val + j
      ∧ u.phase = .run dir l' r' m ∧ u.key = s.key ∧ u.received = s.received)
    ∧ ∃ u b, runWith t (17 - n.val) s = .next u ∧ u.phase = .done ⟨.ok, b⟩ ∧ u.key = s.key
      ∧ u.received = s.received

/-- 44_engine.md R118: steps and functions agree. After ENC or DEC is accepted with key `k`, the pair `(L, R)` after
the j-th ROUND step is the pair after the first j iterations of ENCODE or DECODE, and FINISH loads the response
`OK` with `ENCODE(k, b)` or `DECODE(k, b)`. -/
def Obligations.StepsAgreeWithEncodeAndDecode : Prop :=
  ∀ (t : Tables) (dir : Dir) (b : Block) (k : MasterKey) (s : State) (w : CommandWord),
    s.phase = .idle → s.key = some k → s.sample.rst = false → s.hostStable = true → s.sample.cmd = some w →
    decode w = dataInstr dir b → undisturbed 17 none s.inputs.tail = true →
    (∀ j : Fin 17, ∃ u, runWith t (j.val + 1) s = .next u ∧ u.key = some k
      ∧ u.phase = .run dir (rounds t k dir ((indexOrder dir).take j.val) (splitBlock dir b)).1
          (rounds t k dir ((indexOrder dir).take j.val) (splitBlock dir b)).2 j)
    ∧ ∃ u, runWith t 18 s = .next u ∧ u.key = some k ∧ u.received = s.received
      ∧ u.inputs = s.inputs.drop 18
      ∧ u.phase = .done ⟨.ok, match dir with | .enc => encodeBlock t k b | .dec => decodeBlock t k b⟩

/-- 44_engine.md R113: the response to ENC or DEC depends on the key and the operand only. Two machines that differ
in everything else (what the host drives after the command, what it received before) load the same response. -/
def Obligations.ResponseDependsOnKeyAndOperandOnly : Prop :=
  ∀ (t : Tables) (s u : State) (w : CommandWord) (k : MasterKey),
    s.phase = .idle → u.phase = .idle → s.key = some k → u.key = some k → s.sample.rst = false →
    u.sample.rst = false → s.hostStable = true → u.hostStable = true → s.sample.cmd = some w →
    u.sample.cmd = some w → (∃ dir b, decode w = dataInstr dir b) →
    undisturbed 17 none s.inputs.tail = true → undisturbed 17 none u.inputs.tail = true →
    ∃ s' u' b, runWith t 18 s = .next s' ∧ runWith t 18 u = .next u'
      ∧ s'.phase = .done ⟨.ok, b⟩ ∧ u'.phase = .done ⟨.ok, b⟩

/-- 20_memory.md R34: in any run without reset, for any host, from IDLE to IDLE, the responses the host received are
those of the accepted commands, one each and in order, each ENC and DEC under the key of the last LDKEY before it. -/
def Obligations.CommandsAreAnsweredInOrder : Prop :=
  ∀ (t : Tables) (n : Nat) (s u : State), s.phase = .idle → runWith t n s = .next u → u.phase = .idle →
    (∀ d ∈ s.inputs.take n, d.rst = false) →
    u.received = s.received ++ (answers t s.key (acceptedIn t n s)).1
    ∧ u.key = (answers t s.key (acceptedIn t n s)).2

/-- 44_engine.md R119: no step kind depends on data. Two states that agree on the control state, with hosts that
differ in operands only, keep agreeing, unless a host breaks R154 item 1. -/
def Obligations.StepSequenceDoesNotDependOnData : Prop :=
  ∀ (t : Tables) (s u s' u' : State), SameControl s u → stepWith t s = .next s' → stepWith t u = .next u' →
    SameControl s' u'

/-- 70_reset_and_hazards.md R158: a run that has ended stays ended, its key and its responses unchanged. Past the end
of the host's list this is about the host of log 2. -/
def Obligations.EndedRunsStayEnded : Prop :=
  ∀ s : State, RunEnded s → ∃ u, step s = .next u ∧ RunEnded u ∧ u.key = s.key ∧ u.received = s.received

/-! ### The cipher -/

/-- 44_engine.md R112: the round trip, both ways, for all keys, blocks and well-formed tables. -/
def Obligations.EncodeAndDecodeAreInverse : Prop :=
  ∀ (t : Tables) (k : MasterKey) (b : Block),
    decodeBlock t k (encodeBlock t k b) = b ∧ encodeBlock t k (decodeBlock t k b) = b

/-- 44_engine.md R114: DECODE is the encode datapath with the round keys in reverse order. -/
def Obligations.DecodeIsEncodeWithReversedKeys : Prop :=
  ∀ (t : Tables) (k : MasterKey) (c : Block), decodeBlock t k c = decodeClassical t k c

/-- 44_engine.md R116: key bit 63 has no effect. -/
def Obligations.KeyBit63HasNoEffect : Prop :=
  ∀ (t : Tables) (k : MasterKey) (b : Block),
    encodeBlock t (k ^^^ 0x8000000000000000) b = encodeBlock t k b
    ∧ decodeBlock t (k ^^^ 0x8000000000000000) b = decodeBlock t k b

/-- 44_engine.md R117: with `K[62:0]` all equal, all sixteen round keys are equal, DECODE is ENCODE and encryption
is its own inverse. -/
def Obligations.EqualRoundKeysMakeEncodeAnInvolution : Prop :=
  ∀ (t : Tables) (k : MasterKey) (c : Bool) (b : Block), (∀ i < 63, k.getLsbD i = c) →
    (∀ i j, ks k i = ks k j) ∧ decodeBlock t k b = encodeBlock t k b ∧ encodeBlock t k (encodeBlock t k b) = b

/-- 95_test_vectors.md section 5.1, the last law: a constant round function makes both directions swap the halves. -/
def Obligations.ConstantRoundFunctionSwapsTheHalves : Prop :=
  ∀ (t : Tables) (c : HalfBlock) (k : MasterKey) (b : Block), (∀ h kr, fround t h kr = c) →
    encodeBlock t k b = b.extractLsb' 0 32 ++ b.extractLsb' 32 32
    ∧ decodeBlock t k b = b.extractLsb' 0 32 ++ b.extractLsb' 32 32

/-! ### The combinational parts -/

/-- 40_key_schedule.md R60: `KS(K, i)[j] = K[i + j]` for `j` in 0..47. -/
def Obligations.RoundKeyIsAWindowOfTheMasterKey : Prop :=
  ∀ (k : MasterKey) (i : Fin 16) (j : Nat), j < 48 → (ks k i).getLsbD j = k.getLsbD (i.val + j)

/-- 40_key_schedule.md R62, its five items. -/
def Obligations.RoundKeyScheduleProperties : Prop :=
  (∀ (k : MasterKey) (i : Fin 16), ks (k ^^^ 0x8000000000000000) i = ks k i)
  ∧ (∀ (k : MasterKey) (i : Fin 16), ks (k ^^^ 1) i = if i = 0 then ks k i ^^^ 1 else ks k i)
  ∧ (∀ (k : MasterKey) (i : Fin 16) (b : Nat), b ≤ 62 → b - 47 ≤ i.val → i.val ≤ b →
      (ks k i).getLsbD (b - i.val) = k.getLsbD b)
  ∧ (∀ (k : MasterKey) (i j : Fin 16), j.val = i.val + 1 →
      (∀ m ≤ 46, (ks k j).getLsbD m = (ks k i).getLsbD (m + 1))
      ∧ (ks k j).getLsbD 47 = k.getLsbD (i.val + 48))
  ∧ (∀ i : Fin 16, ks 0 i = 0 ∧ ks 0xFFFFFFFFFFFFFFFF i = 0xFFFFFFFFFFFF ∧ ks 0x7FFFFFFFFFFFFFFF i = 0xFFFFFFFFFFFF)
  ∧ (∀ (k : MasterKey) (c : Bool) (i j : Fin 16), (∀ b ≤ 62, k.getLsbD b = c) → ks k i = ks k j)
  ∧ (∀ (a b : MasterKey) (i : Fin 16), ks (a ^^^ b) i = ks a i ^^^ ks b i)

/-- 41_bit_permutation.md R71: EXPAND copies input bit `32 - ETAB[i]` to output bit `i`, with its corner cases. -/
def Obligations.ExpandSelectsBits : Prop :=
  ∀ t : Tables,
    (∀ (x : HalfBlock) (i : Fin 48), (expand t x).getLsbD i.val = x.getLsbD (32 - etabEntry t i))
    ∧ (∀ i : Fin 48, 1 ≤ etabEntry t i ∧ etabEntry t i ≤ 32)
    ∧ expand t 0 = 0 ∧ expand t 0xFFFFFFFF = 0xFFFFFFFFFFFF
    ∧ ∀ a b : HalfBlock, expand t (a ^^^ b) = expand t a ^^^ expand t b

/-- 41_bit_permutation.md R72: PERMUTE copies input bit `32 - PTAB[i]` to output bit `i`, with its corner cases. -/
def Obligations.PermuteSelectsBits : Prop :=
  ∀ t : Tables,
    (∀ (x : HalfBlock) (i : Fin 32), (permute t x).getLsbD i.val = x.getLsbD (32 - ptabEntry t i))
    ∧ (∀ i : Fin 32, 1 ≤ ptabEntry t i ∧ ptabEntry t i ≤ 32)
    ∧ permute t 0 = 0 ∧ permute t 0xFFFFFFFF = 0xFFFFFFFF
    ∧ ∀ a b : HalfBlock, permute t (a ^^^ b) = permute t a ^^^ permute t b

/-- 41_bit_permutation.md R72: PERMUTE is a bijection exactly when `PTAB` holds each of 1..32 once. -/
def Obligations.PermuteIsABijectionExactlyForPermutationTables : Prop :=
  ∀ t : Tables, Function.Bijective (permute t) ↔ ∀ v, 1 ≤ v → v ≤ 32 → ∃! i : Fin 32, ptabEntry t i = v

/-- 42_sbox.md R80: the row and column that a group selects, and that every table cell is selected by exactly one
group value. -/
def Obligations.SboxGroupSelectsItsCell : Prop :=
  (∀ (t : Tables) (g : SboxGroup) (row : Fin 4) (col : Fin 16),
    row.val = 2 * (g.getLsbD 0).toNat + (g.getLsbD 5).toNat →
    col.val = 8 * (g.getLsbD 1).toNat + 4 * (g.getLsbD 2).toNat + 2 * (g.getLsbD 3).toNat + (g.getLsbD 4).toNat →
    sbox6 t g = stabEntry t row col)
  ∧ ∀ (row : Fin 4) (col : Fin 16), ∃! g : SboxGroup,
      row.val = 2 * (g.getLsbD 0).toNat + (g.getLsbD 5).toNat
      ∧ col.val = 8 * (g.getLsbD 1).toNat + 4 * (g.getLsbD 2).toNat + 2 * (g.getLsbD 3).toNat + (g.getLsbD 4).toNat

/-- 42_sbox.md R81: nibble `g` of SUBST is the lookup of group `g`, with its corner cases: all zeros, all ones, and a
change of one group changes only that group's nibble. -/
def Obligations.SubstLooksUpGroupByGroup : Prop :=
  ∀ t : Tables,
    (∀ (z : RoundKey) (g : Nat), g < 8 → (subst t z).extractLsb' (4 * g) 4 = sbox6 t (z.extractLsb' (6 * g) 6))
    ∧ (∀ g < 8, (subst t 0).extractLsb' (4 * g) 4 = stabEntry t 0 0)
    ∧ (∀ g < 8, (subst t 0xFFFFFFFFFFFF).extractLsb' (4 * g) 4 = stabEntry t 3 15)
    ∧ ∀ (y z : RoundKey) (g : Nat), g < 8 → y.extractLsb' (6 * g) 6 = z.extractLsb' (6 * g) 6 →
        (subst t y).extractLsb' (4 * g) 4 = (subst t z).extractLsb' (4 * g) 4

/-- 43_round_function.md R90: MIX is the bitwise exclusive or, with its corner cases. -/
def Obligations.MixIsBitwiseXor : Prop :=
  (∀ (y kr : RoundKey) (j : Nat), j < 48 → (mix y kr).getLsbD j = Bool.xor (y.getLsbD j) (kr.getLsbD j))
  ∧ ∀ y : RoundKey, mix y 0 = y ∧ mix y y = 0 ∧ mix y 0xFFFFFFFFFFFF = ~~~y

/-- 43_round_function.md R91: FROUND is expand, mix, substitute, permute; it depends on its operands only through
`EXPAND(H) xor Kr`, and a constant `STAB` makes it constant. -/
def Obligations.RoundFunctionDependsOnTheMixedValue : Prop :=
  ∀ t : Tables,
    (∀ (h : HalfBlock) (kr : RoundKey), fround t h kr = permute t (subst t (mix (expand t h) kr)))
    ∧ (∀ s, s = stabEntry t 0 0 → fround t 0 0 = permute t (s ++ s ++ s ++ s ++ s ++ s ++ s ++ s))
    ∧ (∀ (h : HalfBlock) (kr : RoundKey), fround t h kr = fround t 0 (expand t h ^^^ kr))
    ∧ ∀ (c : Nibble), (∀ row col, stabEntry t row col = c) →
        ∀ (h : HalfBlock) (kr : RoundKey), fround t h kr = permute t (c ++ c ++ c ++ c ++ c ++ c ++ c ++ c)

/-- 41_bit_permutation.md R73, R74: the initial and the final permutation are the identity. -/
def Obligations.InitialAndFinalPermutationAreIdentity : Prop :=
  ∀ b : Block, ip b = b ∧ fp b = b

/-- 10_state.md R23: plain tables get a meaning exactly when they are well-formed, and then every entry is the one
given: none is clamped or reduced. -/
def Obligations.IllFormedTablesAreRefused : Prop :=
  ∀ r : RawTables,
    ((∃ t, tablesOfRaw r = some t) ↔
      r.etab.length = 48 ∧ (∀ v ∈ r.etab, 1 ≤ v ∧ v ≤ 32)
      ∧ r.ptab.length = 32 ∧ (∀ v ∈ r.ptab, 1 ≤ v ∧ v ≤ 32)
      ∧ r.stab.length = 4 ∧ ∀ row ∈ r.stab, row.length = 16 ∧ ∀ v ∈ row, v ≤ 15)
    ∧ ∀ t, tablesOfRaw r = some t →
      (∀ i : Fin 48, r.etab[i.val]? = some (etabEntry t i))
      ∧ (∀ i : Fin 32, r.ptab[i.val]? = some (ptabEntry t i))
      ∧ ∀ (i : Fin 4) (j : Fin 16), (r.stab[i.val]?.bind fun row => row[j.val]?) = some (stabEntry t i j).toNat

/-! ### Words and text -/

/-- 30_encoding.md R42, R43: decode and encode agree, both ways, for every command and every 66-bit word. -/
def Obligations.DecodeAndEncodeAgree : Prop :=
  (∀ i : Instr, decode (encode i) = i) ∧ (∀ w : CommandWord, encode (decode w) = w)
  ∧ ∀ (i : Instr) (n : Nat), decodeTableWord n (encode i).toNat = some i

/-- 30_encoding.md R43: the four rows as match and mask over the 66-bit word, the operand being bits 63:0. -/
def Obligations.DecoderFollowsMatchAndMask : Prop :=
  ∀ w : CommandWord,
    (w &&& 0x30000000000000000 = 0x00000000000000000 ↔ decode w = .ldkey (w.extractLsb' 0 64))
    ∧ (w &&& 0x30000000000000000 = 0x10000000000000000 ↔ decode w = .enc (w.extractLsb' 0 64))
    ∧ (w &&& 0x30000000000000000 = 0x20000000000000000 ↔ decode w = .dec (w.extractLsb' 0 64))
    ∧ (w &&& 0x30000000000000000 = 0x30000000000000000 ↔ decode w = .rsvd (w.extractLsb' 0 64))

/-- 95_test_vectors.md section 8: command words written out decode to the commands they stand for. -/
def Obligations.WrittenOutWordsDecode : Prop :=
  decode 0x00123456789ABCDEF = .ldkey 0x0123456789ABCDEF
  ∧ decode 0x10011223344556677 = .enc 0x0011223344556677
  ∧ decode 0x21AFF6733BEB4EB7D = .dec 0x1AFF6733BEB4EB7D
  ∧ decode 0x3FFFFFFFFFFFFFFFF = .rsvd 0xFFFFFFFFFFFFFFFF
  ∧ decode 0x00000000000000000 = .ldkey 0

/-- 30_encoding.md R45, R46: response words read back, and the status `11` is refused, no other. -/
def Obligations.ResponseWordsReadBack : Prop :=
  (∀ r : Response, decodeResponse (encodeResponse r) = .ok r)
  ∧ (∀ (w : ResponseWord) (r : Response), decodeResponse w = .ok r → encodeResponse r = w)
  ∧ ∀ w : ResponseWord, decodeResponse w = .error .reservedStatus ↔ w.extractLsb' 64 2 = 3

/-- 20_memory.md R30: `B[8*c + j] = byte_c[j]`, and the inverse mapping recovers the bytes. -/
def Obligations.TextPackingIsLittleEndianAndInvertible : Prop :=
  (∀ (bytes : Vector Byte 8) (c : Fin 8) (j : Nat), j < 8 →
    (packBytes bytes).getLsbD (8 * c.val + j) = bytes[c].getLsbD j)
  ∧ (∀ bytes : Vector Byte 8, unpackBytes (packBytes bytes) = bytes)
  ∧ ∀ b : Block, packBytes (unpackBytes b) = b

/-- 30_encoding.md R49: the text form of a command determines the command, and `RESET` is the text of no command. -/
def Obligations.CommandTextDeterminesTheAction : Prop :=
  ∀ a b : HostAction, actionText a = actionText b → a = b
end

