-- ==== Sys2Proof/Laws/Words.lean ====
section
/-!
SUPPORT. The fields of command and response words, and of split and joined blocks.
-/
namespace Sys2Proof.Machine

@[simp] theorem commandOp_encode (i : Instr) : commandOp (encode i) = opcode i := by
  cases i <;> simp only [commandOp, encode, opcode, operandOf] <;> exact BitVec.extractLsb'_append_eq_left

@[simp] theorem commandData_encode (i : Instr) : commandData (encode i) = operandOf i := by
  cases i <;> simp only [commandData, encode, opcode, operandOf] <;> exact BitVec.extractLsb'_append_eq_right

/-- A command word is its two fields. -/
theorem commandOp_append_commandData (w : CommandWord) : commandOp w ++ commandData w = w := by
  ext i hi
  simp only [commandOp, commandData, BitVec.getElem_append, BitVec.getElem_extractLsb']
  split
  · simp [BitVec.getLsbD_eq_getElem hi]
  · rw [show 64 + (i - 64) = i by omega, BitVec.getLsbD_eq_getElem hi]

@[simp] theorem responseCode_encode (r : Response) : responseCode (encodeResponse r) = statusCode r.status := by
  simp only [responseCode, encodeResponse]; exact BitVec.extractLsb'_append_eq_left

@[simp] theorem responseData_encode (r : Response) : responseData (encodeResponse r) = r.data := by
  simp only [responseData, encodeResponse]; exact BitVec.extractLsb'_append_eq_right

@[simp] theorem highHalf_append (h l : HalfBlock) : highHalf (h ++ l) = h := by
  simp only [highHalf]; exact BitVec.extractLsb'_append_eq_left

@[simp] theorem lowHalf_append (h l : HalfBlock) : lowHalf (h ++ l) = l := by
  simp only [lowHalf]; exact BitVec.extractLsb'_append_eq_right

/-- A block is its two halves. -/
theorem highHalf_append_lowHalf (b : Block) : highHalf b ++ lowHalf b = b := by
  ext i hi
  simp only [highHalf, lowHalf, BitVec.getElem_append, BitVec.getElem_extractLsb']
  split
  · simp [BitVec.getLsbD_eq_getElem hi]
  · rw [show 32 + (i - 32) = i by omega, BitVec.getLsbD_eq_getElem hi]

/-- DEC's split undoes ENC's join (44_engine.md R104). -/
theorem splitBlock_dec_joinHalves_enc (p : HalfBlock × HalfBlock) : splitBlock .dec (joinHalves .enc p) = p := by
  simp [splitBlock, joinHalves, ip, fp]

/-- ENC's split undoes DEC's join. -/
theorem splitBlock_enc_joinHalves_dec (p : HalfBlock × HalfBlock) : splitBlock .enc (joinHalves .dec p) = p := by
  simp [splitBlock, joinHalves, ip, fp]

/-- DEC's join undoes ENC's split. -/
theorem joinHalves_dec_splitBlock_enc (b : Block) : joinHalves .dec (splitBlock .enc b) = b := by
  simp [splitBlock, joinHalves, ip, fp, highHalf_append_lowHalf]

/-- ENC's join undoes DEC's split. -/
theorem joinHalves_enc_splitBlock_dec (b : Block) : joinHalves .enc (splitBlock .dec b) = b := by
  simp [splitBlock, joinHalves, ip, fp, highHalf_append_lowHalf]

end Sys2Proof.Machine
end

