-- ==== Sys2Proof/Laws/Datapath.lean ====
section
/-!
SUPPORT. Bits of the datapath functions, and the rounds as each other's inverses.
-/
namespace Sys2Proof.Machine

/-- The bound of R23: a bit selection never leaves the input (41_bit_permutation.md R70). -/
theorem etabEntry_bounds (t : Tables) (i : Fin 48) : 1 ≤ etabEntry t i ∧ etabEntry t i ≤ 32 := by
  simp only [etabEntry]; omega

theorem ptabEntry_bounds (t : Tables) (i : Fin 32) : 1 ≤ ptabEntry t i ∧ ptabEntry t i ≤ 32 := by
  simp only [ptabEntry]; omega

theorem getElem_bitsel {n : Nat} (x : HalfBlock) (table : Fin n → Nat) (i : Nat) (h : i < n) :
    (bitsel x table)[i] = x.getLsbD (32 - table ⟨i, h⟩) := by
  simp [bitsel]

/-- A round of one direction undoes the round of the other with the same round key, for any round function
(44_engine.md R112). -/
theorem roundHalves_dec_enc (t : Tables) (kr : RoundKey) (p : HalfBlock × HalfBlock) :
    roundHalves t kr .dec (roundHalves t kr .enc p) = p := by
  simp [roundHalves]

theorem roundHalves_enc_dec (t : Tables) (kr : RoundKey) (p : HalfBlock × HalfBlock) :
    roundHalves t kr .enc (roundHalves t kr .dec p) = p := by
  simp [roundHalves]

@[simp] theorem rounds_nil (t : Tables) (k : MasterKey) (dir : Dir) (p : HalfBlock × HalfBlock) :
    rounds t k dir [] p = p := rfl

@[simp] theorem rounds_cons (t : Tables) (k : MasterKey) (dir : Dir) (i : Fin 16) (order : List (Fin 16))
    (p : HalfBlock × HalfBlock) :
    rounds t k dir (i :: order) p = rounds t k dir order (roundHalves t (ks k i) dir p) := rfl

theorem rounds_append (t : Tables) (k : MasterKey) (dir : Dir) (a b : List (Fin 16)) (p : HalfBlock × HalfBlock) :
    rounds t k dir (a ++ b) p = rounds t k dir b (rounds t k dir a p) := by
  simp [rounds]

end Sys2Proof.Machine
end

