-- ==== Sys2Proof/Laws/State.lean ====
section
/-!
SUPPORT. What each state update leaves in each field, true by rfl, so that no proof unfolds a record update.
-/
namespace Sys2Proof.Machine

@[simp] theorem sampled_key (s : State) : s.sampled.key = s.key := rfl
@[simp] theorem sampled_phase (s : State) : s.sampled.phase = s.phase := rfl
@[simp] theorem sampled_inputs (s : State) : s.sampled.inputs = s.inputs.tail := rfl
@[simp] theorem sampled_presented (s : State) : s.sampled.presented = s.sample.cmd := rfl
@[simp] theorem sampled_received (s : State) : s.sampled.received = s.received := rfl

@[simp] theorem commandTaken_key (s : State) : s.commandTaken.key = s.key := rfl
@[simp] theorem commandTaken_phase (s : State) : s.commandTaken.phase = s.phase := rfl
@[simp] theorem commandTaken_inputs (s : State) : s.commandTaken.inputs = s.inputs := rfl
@[simp] theorem commandTaken_presented (s : State) : s.commandTaken.presented = none := rfl
@[simp] theorem commandTaken_received (s : State) : s.commandTaken.received = s.received := rfl

@[simp] theorem loadKey_key (k : MasterKey) (s : State) : (loadKey k s).key = some k := rfl
@[simp] theorem loadKey_phase (k : MasterKey) (s : State) : (loadKey k s).phase = s.phase := rfl
@[simp] theorem loadKey_inputs (k : MasterKey) (s : State) : (loadKey k s).inputs = s.inputs := rfl
@[simp] theorem loadKey_presented (k : MasterKey) (s : State) : (loadKey k s).presented = s.presented := rfl
@[simp] theorem loadKey_received (k : MasterKey) (s : State) : (loadKey k s).received = s.received := rfl

@[simp] theorem respond_key (status : Status) (data : Block) (s : State) : (respond status data s).key = s.key := rfl
@[simp] theorem respond_phase (status : Status) (data : Block) (s : State) : (respond status data s).phase = .done ⟨status, data⟩ := rfl
@[simp] theorem respond_inputs (status : Status) (data : Block) (s : State) : (respond status data s).inputs = s.inputs := rfl
@[simp] theorem respond_presented (status : Status) (data : Block) (s : State) : (respond status data s).presented = s.presented := rfl
@[simp] theorem respond_received (status : Status) (data : Block) (s : State) : (respond status data s).received = s.received := rfl

@[simp] theorem raiseError_key (code : Status) (s : State) : (raiseError code s).key = s.key := rfl
@[simp] theorem raiseError_phase (code : Status) (s : State) : (raiseError code s).phase = .done ⟨code, 0⟩ := rfl
@[simp] theorem raiseError_inputs (code : Status) (s : State) : (raiseError code s).inputs = s.inputs := rfl
@[simp] theorem raiseError_presented (code : Status) (s : State) : (raiseError code s).presented = s.presented := rfl
@[simp] theorem raiseError_received (code : Status) (s : State) : (raiseError code s).received = s.received := rfl

@[simp] theorem deliver_key (rsp : Response) (s : State) : (deliver rsp s).key = s.key := rfl
@[simp] theorem deliver_phase (rsp : Response) (s : State) : (deliver rsp s).phase = .idle := rfl
@[simp] theorem deliver_inputs (rsp : Response) (s : State) : (deliver rsp s).inputs = s.inputs := rfl
@[simp] theorem deliver_presented (rsp : Response) (s : State) : (deliver rsp s).presented = s.presented := rfl
@[simp] theorem deliver_received (rsp : Response) (s : State) : (deliver rsp s).received = s.received ++ [rsp] := rfl

@[simp] theorem resetEngine_key (s : State) : (resetEngine s).key = none := rfl
@[simp] theorem resetEngine_phase (s : State) : (resetEngine s).phase = .idle := rfl
@[simp] theorem resetEngine_inputs (s : State) : (resetEngine s).inputs = s.inputs := rfl
@[simp] theorem resetEngine_presented (s : State) : (resetEngine s).presented = s.presented := rfl
@[simp] theorem resetEngine_received (s : State) : (resetEngine s).received = s.received := rfl

@[simp] theorem startRun_key (dir : Dir) (data : Block) (s : State) : (startRun dir data s).key = s.key := rfl
@[simp] theorem startRun_phase (dir : Dir) (data : Block) (s : State) : (startRun dir data s).phase = .run dir (splitBlock dir data).1 (splitBlock dir data).2 0 := rfl
@[simp] theorem startRun_inputs (dir : Dir) (data : Block) (s : State) : (startRun dir data s).inputs = s.inputs := rfl
@[simp] theorem startRun_presented (dir : Dir) (data : Block) (s : State) : (startRun dir data s).presented = s.presented := rfl
@[simp] theorem startRun_received (dir : Dir) (data : Block) (s : State) : (startRun dir data s).received = s.received := rfl

@[simp] theorem setRun_key (dir : Dir) (p : HalfBlock × HalfBlock) (n : Fin 17) (s : State) :
    (setRun dir p n s).key = s.key := rfl
@[simp] theorem setRun_phase (dir : Dir) (p : HalfBlock × HalfBlock) (n : Fin 17) (s : State) :
    (setRun dir p n s).phase = .run dir p.1 p.2 n := rfl
@[simp] theorem setRun_inputs (dir : Dir) (p : HalfBlock × HalfBlock) (n : Fin 17) (s : State) :
    (setRun dir p n s).inputs = s.inputs := rfl
@[simp] theorem setRun_presented (dir : Dir) (p : HalfBlock × HalfBlock) (n : Fin 17) (s : State) :
    (setRun dir p n s).presented = s.presented := rfl
@[simp] theorem setRun_received (dir : Dir) (p : HalfBlock × HalfBlock) (n : Fin 17) (s : State) :
    (setRun dir p n s).received = s.received := rfl

/-- The host's samples with one more in front. -/
@[simp] theorem sample_cons (s : State) (d : PortSample) (ds : List PortSample) (h : s.inputs = d :: ds) :
    s.sample = d := by
  simp [State.sample, h]

/-- The host after its samples have ended (log 2). -/
theorem sample_nil (s : State) (h : s.inputs = []) :
    s.sample = { rst := false, cmd := s.presented, rspReady := true } := by
  simp [State.sample, h]

/-- A host that has presented nothing is stable. -/
theorem hostStable_of_none (s : State) (h : s.presented = none) : s.hostStable = true := by
  simp [State.hostStable, h]

/-- A host is stable exactly when it has presented nothing or shows it still. -/
theorem hostStable_iff (s : State) :
    s.hostStable = true ↔ s.presented = none ∨ s.sample.cmd = s.presented := by
  simp [State.hostStable, Option.isNone_iff_eq_none]

end Sys2Proof.Machine
end

