-- ==== Sys2Proof/Laws/Ops.lean ====
section
/-!
SUPPORT. For each shared operation, what it can do, said once.
-/
namespace Sys2Proof.Machine

/-- ACCEPT in IDLE takes the command. -/
theorem accepting_idle {s : State} {effect : State → State} (h : s.phase = .idle) :
    accepting s effect = .next (effect s) := by
  simp [accepting, h]

/-- In RUN and DONE a command is ignored (30_encoding.md R41). -/
theorem accepting_busy {s : State} {effect : State → State} (h : s.phase ≠ .idle) : accepting s effect = .next s := by
  unfold accepting
  split
  · contradiction
  · rfl
  · rfl

/-- Accepting answers a next state always. -/
theorem accepting_next {s : State} {effect : State → State} {u : State} (h : accepting s effect = .next u) :
    (s.phase = .idle ∧ u = effect s) ∨ (s.phase ≠ .idle ∧ u = s) := by
  by_cases hp : s.phase = .idle
  · rw [accepting_idle hp] at h; cases h; exact .inl ⟨hp, rfl⟩
  · rw [accepting_busy hp] at h; cases h; exact .inr ⟨hp, rfl⟩

/-- A data command runs with a key and answers `ERR_NOKEY` without one (44_engine.md R103, R104). -/
theorem dataCommand_key {dir : Dir} {b : Block} {s : State} {k : MasterKey} (h : s.key = some k) :
    dataCommand dir b s = startRun dir b s := by
  simp [dataCommand, State.keyValid, h]

theorem dataCommand_noKey {dir : Dir} {b : Block} {s : State} (h : s.key = none) :
    dataCommand dir b s = raiseError .errNoKey s := by
  simp [dataCommand, State.keyValid, h]

/-- Everything that accepting a command can do. -/
theorem exec_cases (i : Instr) (s : State) (h : s.phase = .idle) :
    (∃ k, i = .ldkey k ∧ exec i s = .next (respond .ok 0 (loadKey k s)))
      ∨ (∃ dir b k, (i = .enc b ∧ dir = .enc ∨ i = .dec b ∧ dir = .dec) ∧ s.key = some k
          ∧ exec i s = .next (startRun dir b s))
      ∨ (∃ b, (i = .enc b ∨ i = .dec b) ∧ s.key = none ∧ exec i s = .next (raiseError .errNoKey s))
      ∨ (∃ d, i = .rsvd d ∧ exec i s = .next (raiseError .errOp s)) := by
  cases i with
  | ldkey k => exact .inl ⟨k, rfl, by rw [exec, execLdkey, accepting_idle h]⟩
  | rsvd d => exact .inr (.inr (.inr ⟨d, rfl, by rw [exec, execRsvd, accepting_idle h]⟩))
  | enc b =>
    cases hk : s.key with
    | none =>
      exact .inr (.inr (.inl ⟨b, .inl rfl, rfl, by rw [exec, execEnc, accepting_idle h, dataCommand_noKey hk]⟩))
    | some k =>
      exact .inr (.inl ⟨.enc, b, k, .inl ⟨rfl, rfl⟩, rfl, by rw [exec, execEnc, accepting_idle h, dataCommand_key hk]⟩)
  | dec b =>
    cases hk : s.key with
    | none =>
      exact .inr (.inr (.inl ⟨b, .inr rfl, rfl, by rw [exec, execDec, accepting_idle h, dataCommand_noKey hk]⟩))
    | some k =>
      exact .inr (.inl ⟨.dec, b, k, .inr ⟨rfl, rfl⟩, rfl, by rw [exec, execDec, accepting_idle h, dataCommand_key hk]⟩)

end Sys2Proof.Machine
end

