-- ==== Sys2Proof/Laws/PerInstr.lean ====
section
/-!
SUPPORT. The family CommandRow: what every command's word is, one lemma per constructor.
-/
namespace Sys2Proof.Laws.CommandRow

/-- The `match` of a command's row in spec/opcode_table.json (30_encoding.md R43). -/
def rowMatch : Instr → CommandWord
  | .ldkey _ => 0x00000000000000000
  | .enc _ => 0x10000000000000000
  | .dec _ => 0x20000000000000000
  | .rsvd _ => 0x30000000000000000

/-- A command is well-formed, its word under the row's mask is the row's match, and its operand is bits 63:0. -/
def Statement (i : Instr) : Prop :=
  i.wellFormed = true ∧ encode i &&& 0x30000000000000000 = rowMatch i ∧ commandData (encode i) = operandOf i

/-- Masking a word with bits 65:64 keeps its opcode and clears its operand. -/
theorem append_and_mask (op : BitVec 2) (d : Block) :
    (op ++ d : CommandWord) &&& 0x30000000000000000 = (op ++ (0 : Block) : CommandWord) := by
  rw [show (0x30000000000000000 : CommandWord) = ((3 : BitVec 2) ++ (0 : Block)) by decide, BitVec.and_append]
  rw [show op &&& 3 = op by decide +revert]
  simp

theorem ldkey (data : MasterKey) : Statement (.ldkey data) :=
  ⟨rfl, by rw [encode, append_and_mask]; simp only [opcode, rowMatch]; decide, Machine.commandData_encode _⟩

theorem enc (data : Block) : Statement (.enc data) :=
  ⟨rfl, by rw [encode, append_and_mask]; simp only [opcode, rowMatch]; decide, Machine.commandData_encode _⟩

theorem dec (data : Block) : Statement (.dec data) :=
  ⟨rfl, by rw [encode, append_and_mask]; simp only [opcode, rowMatch]; decide, Machine.commandData_encode _⟩

theorem rsvd (data : Block) : Statement (.rsvd data) :=
  ⟨rfl, by rw [encode, append_and_mask]; simp only [opcode, rowMatch]; decide, Machine.commandData_encode _⟩

end Sys2Proof.Laws.CommandRow
end

