-- ==== Sys2Proof/Laws/Step.lean ====
section
/-!
SUPPORT. One step of the machine: one lemma per kind of step, and one lemma that says all that a step can do.
-/
namespace Sys2Proof.Machine

theorem step_eq_stepWith (s : State) : step s = stepWith Config.tables s := rfl

theorem stepWith_reset (t : Tables) {s : State} (h : s.sample.rst = true) :
    stepWith t s = .next (resetEngine s.sampled) := by
  simp [stepWith, h]

theorem stepWith_unstable (t : Tables) {s : State} (h : s.sample.rst = false) (hs : s.hostStable = false) :
    stepWith t s = .refused .unstableHost := by
  simp [stepWith, h, hs]

theorem stepWith_stable (t : Tables) {s : State} (h : s.sample.rst = false) (hs : s.hostStable = true) :
    stepWith t s = engineStep t s.sample s.sampled := by
  simp [stepWith, h, hs]

theorem engineStep_accept (t : Tables) {d : PortSample} {s : State} {w : CommandWord} (hp : s.phase = .idle)
    (hc : d.cmd = some w) : engineStep t d s = exec (decode w) s.commandTaken := by
  simp [engineStep, hp, hc]

theorem engineStep_idle (t : Tables) {d : PortSample} {s : State} (hp : s.phase = .idle) (hc : d.cmd = none) :
    engineStep t d s = .next s := by
  simp [engineStep, hp, hc]

/-- ROUND with a key (44_engine.md R106, R107). -/
theorem engineStep_round (t : Tables) {d : PortSample} {s : State} {dir : Dir} {l r : HalfBlock} {rnd : Fin 17}
    {k : MasterKey} (hp : s.phase = .run dir l r rnd) (hk : s.key = some k) (h : rnd.val < 16) :
    engineStep t d s = .next (setRun dir (roundHalves t (ks k (roundIndex dir rnd.val h)) dir (l, r))
      ⟨rnd.val + 1, by omega⟩ s) := by
  simp [engineStep, hp, h, roundStep, State.roundKey, hk]

/-- ROUND without a key has no meaning (10_state.md R26 (a)). -/
theorem engineStep_round_noKey (t : Tables) {d : PortSample} {s : State} {dir : Dir} {l r : HalfBlock} {rnd : Fin 17}
    (hp : s.phase = .run dir l r rnd) (hk : s.key = none) (h : rnd.val < 16) :
    engineStep t d s = .fault .roundWithoutKey := by
  simp [engineStep, hp, h, roundStep, State.roundKey, hk]

/-- FINISH (44_engine.md R108). -/
theorem engineStep_finish (t : Tables) {d : PortSample} {s : State} {dir : Dir} {l r : HalfBlock} {rnd : Fin 17}
    (hp : s.phase = .run dir l r rnd) (h : ¬ rnd.val < 16) :
    engineStep t d s = .next (respond .ok (joinHalves dir (l, r)) s) := by
  simp [engineStep, hp, h, finishStep]

/-- DELIVER (44_engine.md R109). -/
theorem engineStep_deliver (t : Tables) {d : PortSample} {s : State} {rsp : Response} (hp : s.phase = .done rsp)
    (hr : d.rspReady = true) : engineStep t d s = .next (deliver rsp s) := by
  simp [engineStep, hp, hr]

theorem engineStep_hold (t : Tables) {d : PortSample} {s : State} {rsp : Response} (hp : s.phase = .done rsp)
    (hr : d.rspReady = false) : engineStep t d s = .next s := by
  simp [engineStep, hp, hr]

/-- All that a step which answers a next state can do (44_engine.md R100). -/
theorem stepWith_cases {t : Tables} {s u : State} (h : stepWith t s = .next u) :
    (s.sample.rst = true ∧ u = resetEngine s.sampled)
    ∨ (s.sample.rst = false ∧ s.hostStable = true ∧
      ((s.phase = .idle ∧ s.sample.cmd = none ∧ u = s.sampled)
      ∨ (∃ w, s.phase = .idle ∧ s.sample.cmd = some w ∧ exec (decode w) s.sampled.commandTaken = .next u)
      ∨ (∃ dir l r rnd k, ∃ h : rnd.val < 16, s.phase = .run dir l r rnd ∧ s.key = some k
          ∧ u = setRun dir (roundHalves t (ks k (roundIndex dir rnd.val h)) dir (l, r)) ⟨rnd.val + 1, by omega⟩
            s.sampled)
      ∨ (∃ dir l r rnd, s.phase = .run dir l r rnd ∧ rnd.val = 16
          ∧ u = respond .ok (joinHalves dir (l, r)) s.sampled)
      ∨ (∃ rsp, s.phase = .done rsp ∧ s.sample.rspReady = true ∧ u = deliver rsp s.sampled)
      ∨ (∃ rsp, s.phase = .done rsp ∧ s.sample.rspReady = false ∧ u = s.sampled))) := by
  cases hr : s.sample.rst with
  | true => rw [stepWith_reset t hr] at h; cases h; exact .inl ⟨rfl, rfl⟩
  | false =>
    cases hs : s.hostStable with
    | false => rw [stepWith_unstable t hr hs] at h; cases h
    | true =>
      rw [stepWith_stable t hr hs] at h
      refine .inr ⟨rfl, rfl, ?_⟩
      cases hp : s.phase with
      | idle =>
        cases hc : s.sample.cmd with
        | none => rw [engineStep_idle t (s := s.sampled) hp hc] at h; cases h; exact .inl ⟨rfl, rfl, rfl⟩
        | some w => rw [engineStep_accept t (s := s.sampled) hp hc] at h; exact .inr (.inl ⟨w, rfl, rfl, h⟩)
      | run dir l r rnd =>
        by_cases hn : rnd.val < 16
        · cases hk : s.key with
          | none => rw [engineStep_round_noKey t (s := s.sampled) hp hk hn] at h; cases h
          | some k =>
            rw [engineStep_round t (s := s.sampled) hp hk hn] at h
            cases h
            exact .inr (.inr (.inl ⟨dir, l, r, rnd, k, hn, rfl, rfl, rfl⟩))
        · rw [engineStep_finish t (s := s.sampled) hp hn] at h
          cases h
          exact .inr (.inr (.inr (.inl ⟨dir, l, r, rnd, rfl, by omega, rfl⟩)))
      | done rsp =>
        cases hd : s.sample.rspReady with
        | true =>
          rw [engineStep_deliver t (s := s.sampled) hp hd] at h
          cases h
          exact .inr (.inr (.inr (.inr (.inl ⟨rsp, rfl, rfl, rfl⟩))))
        | false =>
          rw [engineStep_hold t (s := s.sampled) hp hd] at h
          cases h
          exact .inr (.inr (.inr (.inr (.inr ⟨rsp, rfl, rfl, rfl⟩))))

end Sys2Proof.Machine
end

