-- ==== Sys2Proof/Laws/Run.lean ====
section
/-!
SUPPORT. Runs of several steps, and hosts that leave the engine alone.
-/
namespace Sys2Proof.Machine

@[simp] theorem runWith_zero (t : Tables) (s : State) : runWith t 0 s = .next s := rfl

theorem runWith_succ {t : Tables} {n : Nat} {s s' : State} (h : stepWith t s = .next s') :
    runWith t (n + 1) s = runWith t n s' := by
  simp [runWith, h]

/-- A run whose first step has no next state has none. -/
theorem stepWith_of_runWith {t : Tables} {n : Nat} {s u : State} (h : runWith t (n + 1) s = .next u) :
    ∃ s', stepWith t s = .next s' ∧ runWith t n s' = .next u := by
  cases hs : stepWith t s with
  | next s' => exact ⟨s', rfl, runWith_succ (n := n) hs ▸ h⟩
  | fault r => simp [runWith, hs] at h
  | refused r => simp [runWith, hs] at h

theorem runWith_add {t : Tables} {a b : Nat} {s s' : State} (h : runWith t a s = .next s') :
    runWith t (a + b) s = runWith t b s' := by
  induction a generalizing s with
  | zero => cases h; rw [Nat.zero_add]
  | succ a ih =>
    obtain ⟨u, hs, hu⟩ := stepWith_of_runWith h
    rw [show a + 1 + b = (a + b) + 1 by omega, runWith_succ hs, ih hu]

/-- The host's own run, one step at a time. -/
theorem coreRun_succ (m : Host.Core) (n : Nat) (s : m.State) :
    m.run (n + 1) s = match m.step s with
      | .next s' => m.run n s'
      | .fault r => .fault r
      | .refused r => .refused r := rfl

/-- The host's own run of the machine is the run over the hardware's tables. -/
theorem core_run (n : Nat) (s : State) : Sys2Proof.core.run n s = runWith Config.tables n s := by
  induction n generalizing s with
  | zero => rfl
  | succ n ih =>
    refine (coreRun_succ Sys2Proof.core n s).trans ?_
    unfold runWith
    rw [show Sys2Proof.core.step s = stepWith Config.tables s from rfl]
    cases stepWith Config.tables s with
    | next s' => exact ih s'
    | fault r => rfl
    | refused r => rfl

/-- What an undisturbed step has: no reset, a stable host, and the rest undisturbed. -/
theorem undisturbed_succ {n : Nat} {s : State} (h : undisturbed (n + 1) s.presented s.inputs = true) :
    s.sample.rst = false ∧ s.hostStable = true
      ∧ undisturbed n s.sampled.presented s.sampled.inputs = true := by
  cases hi : s.inputs with
  | nil =>
    have hs := sample_nil s hi
    refine ⟨by rw [hs], (hostStable_iff s).2 (.inr (by rw [hs])), ?_⟩
    rw [sampled_inputs, hi]
    cases n <;> rfl
  | cons d ds =>
    rw [hi] at h
    simp only [undisturbed, Bool.and_eq_true, Bool.not_eq_true', Bool.or_eq_true, Option.isNone_iff_eq_none,
      beq_iff_eq] at h
    have hs := sample_cons s d ds hi
    refine ⟨by rw [hs]; exact h.1.1, (hostStable_iff s).2 (by rw [hs]; exact h.1.2), ?_⟩
    rw [sampled_inputs, sampled_presented, hs, hi]
    exact h.2

end Sys2Proof.Machine
end

