-- ==== Sys2Proof/Tests/Slice0.lean ====
section
/-!
SUPPORT. Tests. Every expected value is the spec's own: the file and section of spec/ stand at each group. The
fixture tables FIX-A are the spec's invention for vectors, not the hardware's (95_test_vectors.md section 2).
-/
namespace Sys2Proof.Tests
open Sys2Proof.Machine

/-! ### The fixture tables FIX-A, written out as 95_test_vectors.md section 2 writes them -/

def rawFixA : RawTables where
  etab := [3, 8, 13, 18, 23, 28, 1, 6, 11, 16, 21, 26, 31, 4, 9, 14] ++
    [19, 24, 29, 2, 7, 12, 17, 22, 27, 32, 5, 10, 15, 20, 25, 30] ++
    [3, 8, 13, 18, 23, 28, 1, 6, 11, 16, 21, 26, 31, 4, 9, 14]
  ptab := [4, 11, 18, 25, 32, 7, 14, 21, 28, 3, 10, 17, 24, 31, 6, 13] ++
    [20, 27, 2, 9, 16, 23, 30, 5, 12, 19, 26, 1, 8, 15, 22, 29]
  stab := [[3, 10, 1, 8, 15, 6, 13, 4, 11, 2, 9, 0, 7, 14, 5, 12],
    [8, 15, 6, 13, 4, 11, 2, 9, 0, 7, 14, 5, 12, 3, 10, 1],
    [13, 4, 11, 2, 9, 0, 7, 14, 5, 12, 3, 10, 1, 8, 15, 6],
    [2, 9, 0, 7, 14, 5, 12, 3, 10, 1, 8, 15, 6, 13, 4, 11]]

def fixA : Tables := (tablesOfRaw rawFixA).getD default

/-! ### WellFormed: each check refuses an ill-formed term (10_state.md R23) -/

theorem test_rawFixA_wellFormed : rawFixA.wellFormed = true := by decide
theorem test_tablesOfRaw_fixA : tablesOfRaw rawFixA = some fixA := by decide +kernel
theorem test_etab_entry_zero_refused :
    ({ rawFixA with etab := 0 :: rawFixA.etab.tail } : RawTables).wellFormed = false := by decide
theorem test_etab_entry_33_refused :
    ({ rawFixA with etab := 33 :: rawFixA.etab.tail } : RawTables).wellFormed = false := by decide
theorem test_etab_short_refused : ({ rawFixA with etab := rawFixA.etab.tail } : RawTables).wellFormed = false := by decide
theorem test_ptab_entry_33_refused :
    ({ rawFixA with ptab := 33 :: rawFixA.ptab.tail } : RawTables).wellFormed = false := by decide
theorem test_ptab_long_refused : ({ rawFixA with ptab := 1 :: rawFixA.ptab } : RawTables).wellFormed = false := by decide
theorem test_stab_rows_refused : ({ rawFixA with stab := rawFixA.stab.tail } : RawTables).wellFormed = false := by decide
theorem test_stab_row_length_refused :
    ({ rawFixA with stab := [] :: rawFixA.stab.tail } : RawTables).wellFormed = false := by decide
theorem test_stab_entry_16_refused :
    ({ rawFixA with stab := [16, 10, 1, 8, 15, 6, 13, 4, 11, 2, 9, 0, 7, 14, 5, 12] :: rawFixA.stab.tail } :
      RawTables).wellFormed = false := by decide
theorem test_ill_formed_tables_have_no_meaning :
    tablesOfRaw { rawFixA with etab := 0 :: rawFixA.etab.tail } = none := by decide

/-! ### Words (30_encoding.md R42, R43, R46; 95_test_vectors.md section 8) -/

theorem test_decode_ldkey : decode 0x00123456789ABCDEF = .ldkey 0x0123456789ABCDEF := by decide
theorem test_decode_enc : decode 0x10011223344556677 = .enc 0x0011223344556677 := by decide
theorem test_decode_dec : decode 0x21AFF6733BEB4EB7D = .dec 0x1AFF6733BEB4EB7D := by decide
theorem test_decode_rsvd : decode 0x3FFFFFFFFFFFFFFFF = .rsvd 0xFFFFFFFFFFFFFFFF := by decide
theorem test_decode_zero_word : decode 0 = .ldkey 0 := by decide
theorem test_encode_dec : encode (.dec 0x1AFF6733BEB4EB7D) = 0x21AFF6733BEB4EB7D := by decide
theorem test_wide_number_is_rejected : commandWord (2 ^ 66) = .error .widerThanC66 := by decide
theorem test_decodeTableWord : decodeTableWord 72 0x1FFFFFFFFFFFFFFFF = some (.enc 0xFFFFFFFFFFFFFFFF) := by decide
theorem test_decodeTableWord_wide : decodeTableWord 72 0x40000000000000000 = none := by decide
theorem test_response_errNoKey : encodeResponse ⟨.errNoKey, 0⟩ = 0x10000000000000000 := by decide
theorem test_response_errOp : encodeResponse ⟨.errOp, 0⟩ = 0x20000000000000000 := by decide
theorem test_response_ok : encodeResponse ⟨.ok, 0x1AFF6733BEB4EB7D⟩ = 0x01AFF6733BEB4EB7D := by decide
theorem test_response_status_11_refused : decodeResponse 0x30000000000000000 = .error .reservedStatus := by decide

/-- 30_encoding.md R49's own example of a line, `ENC 0x0011223344556677`. -/
theorem test_commandText : commandText (.enc 0x0011223344556677) =
    ['E', 'N', 'C', ' ', '0', 'x', '0', '0', '1', '1', '2', '2', '3', '3', '4', '4', '5', '5', '6', '6', '7', '7'] := by
  decide

/-- R49's example of a word, `1_0011223344556677`. -/
theorem test_wordText : wordText (encode (.enc 0x0011223344556677)) =
    ['1', '_', '0', '0', '1', '1', '2', '2', '3', '3', '4', '4', '5', '5', '6', '6', '7', '7'] := by decide

/-- 95_test_vectors.md section 10: `ABCDEFGH` is 4847464544434241. -/
theorem test_packBytes : packBytes #v[0x41, 0x42, 0x43, 0x44, 0x45, 0x46, 0x47, 0x48] = 0x4847464544434241 := by decide

/-! ### The combinational parts (95_test_vectors.md section 4) -/

theorem test_ks_0 : ks 0x0123456789ABCDEF 0 = 0x456789ABCDEF := by decide
theorem test_ks_1 : ks 0x0123456789ABCDEF 1 = 0xA2B3C4D5E6F7 := by decide
theorem test_ks_15 : ks 0x0123456789ABCDEF 15 = 0x02468ACF1357 := by decide
theorem test_ks_top : ks 0xFFFF000000000000 15 = 0xFFFE00000000 := by decide
theorem test_expand_low_bit : expand fixA 0x00000001 = 0x000002000000 := by decide +kernel
theorem test_expand_high_bit : expand fixA 0x80000000 = 0x004000000040 := by decide +kernel
theorem test_expand_general : expand fixA 0x12345678 = 0xA93821B4A938 := by decide +kernel
theorem test_permute_low_bit : permute fixA 0x00000001 = 0x00000010 := by decide +kernel
theorem test_permute_general : permute fixA 0xDEADBEEF = 0xCEFFE8FB := by decide +kernel
theorem test_sbox6_row_bit : sbox6 fixA 0x01 = 0xD := by decide +kernel
theorem test_sbox6_general : sbox6 fixA 0x2A = 0xE := by decide +kernel
theorem test_subst_group_0 : subst fixA 0x000000000001 = 0x3333333D := by decide +kernel
theorem test_subst_general : subst fixA 0x123456789ABC = 0xFA4ECBE9 := by decide +kernel
theorem test_mix : mix 0xA93821B4A938 0x9ABCDEF01234 = 0x3384FF44BB0C := by decide
theorem test_fround : fround fixA 0x12345678 0x9ABCDEF01234 = 0xB8FED415 := by decide +kernel

/-! ### ENCODE and DECODE (95_test_vectors.md sections 5.2 and 6) -/

theorem test_encodeBlock : encodeBlock fixA 0x0123456789ABCDEF 0x0011223344556677 = 0x1AFF6733BEB4EB7D := by
  decide +kernel
theorem test_encodeBlock_key_0 : encodeBlock fixA 0 0 = 0x781A1BA8EE8ACF7C := by decide +kernel
theorem test_decodeBlock : decodeBlock fixA 0x0123456789ABCDEF 0x0011223344556677 = 0x9CBB904CBB4CBDC8 := by
  decide +kernel
theorem test_decodeClassical : decodeClassical fixA 0x0123456789ABCDEF 0x1AFF6733BEB4EB7D = 0x0011223344556677 := by
  decide +kernel

/-! ### One step each (44_engine.md's examples, 95_test_vectors.md section 9) -/

/-- A sample at which the host presents a command. -/
def showing (i : Instr) : PortSample := { rst := false, cmd := some (encode i), rspReady := false }

/-- A sample at which the host presents nothing and takes no response. -/
def quiet : PortSample := { rst := false, cmd := none, rspReady := false }

/-- A state with a key, a phase and the coming samples. -/
def stateOf (key : Option MasterKey) (phase : Phase) (inputs : List PortSample) : State :=
  { State.reset with key := key, phase := phase, inputs := inputs }

theorem test_ldkey_step : stepWith fixA (stateOf none .idle [showing (.ldkey 0x0123456789ABCDEF)])
    = .next (stateOf (some 0x0123456789ABCDEF) (.done ⟨.ok, 0⟩) []) := rfl
theorem test_enc_step : stepWith fixA (stateOf (some 0x0123456789ABCDEF) .idle [showing (.enc 0x0011223344556677)])
    = .next (stateOf (some 0x0123456789ABCDEF) (.run .enc 0x00112233 0x44556677 0) []) := by rfl
theorem test_enc_step_without_key : stepWith fixA (stateOf none .idle [showing (.enc 0x0011223344556677)])
    = .next (stateOf none (.done ⟨.errNoKey, 0⟩) []) := rfl
theorem test_dec_step : stepWith fixA (stateOf (some 0x0123456789ABCDEF) .idle [showing (.dec 0x1AFF6733BEB4EB7D)])
    = .next (stateOf (some 0x0123456789ABCDEF) (.run .dec 0xBEB4EB7D 0x1AFF6733 0) []) := by rfl
theorem test_dec_step_without_key : stepWith fixA (stateOf none .idle [showing (.dec 0x0011223344556677)])
    = .next (stateOf none (.done ⟨.errNoKey, 0⟩) []) := rfl
theorem test_rsvd_step_without_key : stepWith fixA (stateOf none .idle [showing (.rsvd 0xFFFFFFFFFFFFFFFF)])
    = .next (stateOf none (.done ⟨.errOp, 0⟩) []) := rfl
theorem test_rsvd_step_with_key : stepWith fixA (stateOf (some 0x0123456789ABCDEF) .idle [showing (.rsvd 0)])
    = .next (stateOf (some 0x0123456789ABCDEF) (.done ⟨.errOp, 0⟩) []) := rfl

/-- The phase of a next state. -/
def phaseAfter : Host.Outcome State Fault Refusal → Option Phase
  | .next s => some s.phase
  | .fault _ => none
  | .refused _ => none

theorem test_first_encode_round : phaseAfter (stepWith fixA
      (stateOf (some 0x0123456789ABCDEF) (.run .enc 0x00112233 0x44556677 0) [quiet]))
    = some (.run .enc 0x44556677 0xFF2EA29A 1) := by decide +kernel
theorem test_sixteenth_encode_round : phaseAfter (stepWith fixA
      (stateOf (some 0x0123456789ABCDEF) (.run .enc 0xE5431CD2 0xBEB4EB7D 15) [quiet]))
    = some (.run .enc 0xBEB4EB7D 0x1AFF6733 16) := by decide +kernel
theorem test_first_decode_round : phaseAfter (stepWith fixA
      (stateOf (some 0x0123456789ABCDEF) (.run .dec 0xBEB4EB7D 0x1AFF6733 0) [quiet]))
    = some (.run .dec 0xE5431CD2 0xBEB4EB7D 1) := by decide +kernel
theorem test_sixteenth_decode_round : phaseAfter (stepWith fixA
      (stateOf (some 0x0123456789ABCDEF) (.run .dec 0x44556677 0xFF2EA29A 15) [quiet]))
    = some (.run .dec 0x00112233 0x44556677 16) := by decide +kernel
theorem test_encode_finish : stepWith fixA (stateOf (some 7) (.run .enc 0xBEB4EB7D 0x1AFF6733 16) [quiet])
    = .next (stateOf (some 7) (.done ⟨.ok, 0x1AFF6733BEB4EB7D⟩) []) := by rfl
theorem test_decode_finish : stepWith fixA (stateOf (some 7) (.run .dec 0x00112233 0x44556677 16) [quiet])
    = .next (stateOf (some 7) (.done ⟨.ok, 0x0011223344556677⟩) []) := by rfl
theorem test_deliver : stepWith fixA (stateOf none (.done ⟨.errOp, 0⟩) [])
    = .next { stateOf none .idle [] with received := [⟨.errOp, 0⟩] } := rfl
theorem test_hold : stepWith fixA (stateOf none (.done ⟨.errOp, 0⟩) [quiet])
    = .next (stateOf none (.done ⟨.errOp, 0⟩) []) := rfl

/-- Program P4's reset: the command in RUN is dropped and the key forgotten, although a command is presented. -/
theorem test_reset_during_run : stepWith fixA
      (stateOf (some 0x0123456789ABCDEF) (.run .enc 0x9D25BA9B 0xBA573006 5) [{ quiet with rst := true }])
    = .next (stateOf none .idle []) := rfl
theorem test_reset_accepts_nothing : phaseAfter (stepWith fixA
      (stateOf none .idle [{ showing (.ldkey 1) with rst := true }])) = some .idle := by decide
theorem test_run_without_key_faults : stepWith fixA (stateOf none (.run .enc 0 0 0) [quiet])
    = .fault .roundWithoutKey := rfl
theorem test_changed_command_refused : stepWith fixA
      { stateOf none .idle [showing (.ldkey 1)] with presented := some (encode (.ldkey 2)) }
    = .refused .unstableHost := by rfl

/-- The host's entry: the word is the next command accepted, whatever the engine was doing. -/
theorem test_withFetchWord_from_reset : step (State.reset.withFetchWord 72 0x00123456789ABCDEF)
    = .next (stateOf (some 0x0123456789ABCDEF) (.done ⟨.ok, 0⟩) []) := by rfl
theorem test_withFetchWord_from_run :
    step ((stateOf (some 7) (.run .dec 1 2 3) []).withFetchWord 72 0x30000000000000000)
    = .next (stateOf (some 7) (.done ⟨.errOp, 0⟩) []) := by rfl

/-! ### Witnesses: the hypotheses of each statement can be met together -/

/-- A waiting host with a key and a command shown. -/
abbrev readyFor (i : Instr) : State := stateOf (some 7) .idle [showing i]

theorem witness_LdkeyLoadsKeyAndAnswersOk : ∃ s : State, s.phase = .idle := ⟨State.reset, rfl⟩
theorem witness_EncWithKeyStartsTheRun : ∃ (s : State) (k : MasterKey), s.phase = .idle ∧ s.key = some k :=
  ⟨stateOf (some 0) .idle [], 0, rfl, rfl⟩
theorem witness_DecWithKeyStartsTheRunSwapped : ∃ (s : State) (k : MasterKey), s.phase = .idle ∧ s.key = some k :=
  ⟨stateOf (some 0xFFFFFFFFFFFFFFFF) .idle [], _, rfl, rfl⟩
theorem witness_DataCommandWithoutKeyAnswersErrNokey : ∃ s : State, s.phase = .idle ∧ s.key = none :=
  ⟨State.reset, rfl, rfl⟩
theorem witness_RsvdAnswersErrOp : ∃ s : State, s.phase = .idle ∧ s.keyValid = true :=
  ⟨stateOf (some 0) .idle [], rfl, rfl⟩
theorem witness_CommandsOutsideIdleAreIgnored : (stateOf (some 7) (.run .enc 1 2 3) []).phase ≠ .idle
    ∧ (stateOf none (.done ⟨.errOp, 0⟩) []).phase ≠ .idle := by decide
theorem witness_ErrorsArePreciseAndNotSticky :
    exec (.enc 1) State.reset = .next (raiseError .errNoKey State.reset)
    ∧ exec (.rsvd 1) (readyFor (.enc 1)) = .next (raiseError .errOp (readyFor (.enc 1)))
    ∧ (raiseError .errNoKey State.reset).pending = some ⟨.errNoKey, 0⟩ := ⟨rfl, rfl, rfl⟩
theorem witness_AcceptStepRunsTheDecodedCommand : (readyFor (.dec 5)).phase = .idle
    ∧ (readyFor (.dec 5)).sample.rst = false ∧ (readyFor (.dec 5)).hostStable = true
    ∧ (readyFor (.dec 5)).sample.cmd = some 0x20000000000000005
    ∧ decode 0x20000000000000005 = .dec 5 := by decide
theorem witness_RoundStepWhenEncrypting : ∀ n : Fin 16, ∃ s : State, s.phase = .run .enc 1 2 n.castSucc
    ∧ s.key = some 7 ∧ s.sample.rst = false ∧ s.hostStable = true :=
  fun n => ⟨stateOf (some 7) (.run .enc 1 2 n.castSucc) [quiet], rfl, rfl, rfl, rfl⟩
theorem witness_RoundStepWhenDecrypting : ∀ n : Fin 16, ∃ (s : State) (i : Fin 16), i.val = 15 - n.val
    ∧ s.phase = .run .dec 1 2 n.castSucc ∧ s.key = some 7 ∧ s.sample.rst = false ∧ s.hostStable = true :=
  fun n => ⟨stateOf (some 7) (.run .dec 1 2 n.castSucc) [quiet], ⟨15 - n.val, by omega⟩, rfl, rfl, rfl, rfl, rfl⟩
theorem witness_FinishJoinsTheHalves : ∀ dir : Dir, ∃ s : State, s.phase = .run dir 1 2 16 ∧ s.sample.rst = false
    ∧ s.hostStable = true := fun dir => ⟨stateOf (some 7) (.run dir 1 2 16) [], rfl, rfl, rfl⟩
theorem witness_DeliverHandsOverTheResponse : ∃ s : State, s.phase = .done ⟨.ok, 3⟩ ∧ s.sample.rst = false
    ∧ s.hostStable = true ∧ s.sample.rspReady = true := ⟨stateOf none (.done ⟨.ok, 3⟩) [], rfl, rfl, rfl, rfl⟩
theorem witness_IdleAndDoneWaitForTheHost :
    (∃ s : State, s.sample.rst = false ∧ s.hostStable = true ∧ s.phase = .idle ∧ s.sample.cmd = none)
    ∧ ∃ s : State, s.sample.rst = false ∧ s.hostStable = true ∧ s.phase = .done ⟨.ok, 3⟩
        ∧ s.sample.rspReady = false ∧ s.sampled.sample.rst = false :=
  ⟨⟨State.reset, rfl, rfl, rfl, rfl⟩, ⟨stateOf none (.done ⟨.ok, 3⟩) [quiet], rfl, rfl, rfl, rfl, rfl⟩⟩
theorem witness_ResetForgetsKeyAndDropsTheCommand :
    (stateOf (some 7) (.run .enc 1 2 3) [{ quiet with rst := true }]).sample.rst = true := rfl
theorem witness_ResetStateIsIdleWithoutKey :
    ({ State.reset with inputs := [showing (.ldkey 1)] } : State).sample.rst = false := rfl
theorem witness_UnstableHostHasNoStep : ∃ s : State, s.presented = some (encode (.ldkey 2))
    ∧ s.sample.cmd ≠ some (encode (.ldkey 2)) ∧ s.sample.rst = false :=
  ⟨{ stateOf none .idle [showing (.ldkey 1)] with presented := some (encode (.ldkey 2)) }, by decide⟩
theorem witness_OutputPortsFollowThePhase : (readyFor (.enc 1)).cmdReady = true
    ∧ (stateOf none (.done ⟨.ok, 3⟩) [quiet]).rspValid = true
    ∧ (stateOf (some 7) (.run .enc 1 2 3) [quiet]).rspValid = false := by decide
theorem witness_PhaseTransitions : ∃ u, stepWith fixA (readyFor (.enc 1)) = .next u ∧ u.phase = .run .enc 0 1 0 :=
  ⟨stateOf (some 7) (.run .enc 0 1 0) [], by rfl, rfl⟩
theorem witness_KeyIsWrittenOnlyByLdkeyAndReset : ∃ u, stepWith fixA (readyFor (.ldkey 9)) = .next u
    ∧ u.key = some 9 := ⟨stateOf (some 9) (.done ⟨.ok, 0⟩) [], by rfl, rfl⟩
theorem witness_ResponsesAreReceivedOnlyWhenTaken : ∃ u, stepWith fixA (stateOf none (.done ⟨.errOp, 0⟩) []) = .next u
    ∧ u.received = [⟨.errOp, 0⟩] := ⟨_, test_deliver, rfl⟩
theorem witness_StepKeepsTheInvariant : Inv (readyFor (.enc 1)) ∧ ∃ u, step (readyFor (.enc 1)) = .next u :=
  ⟨by decide, stateOf (some 7) (.run .enc 0 1 0) [], by rfl⟩
theorem witness_LegalStatesNeverGetStuck : Inv (stateOf (some 7) (.run .dec 1 2 15) []) := by decide
theorem witness_RunIsLeftAfterTheRemainingRounds : ∀ n : Fin 17, ∃ s : State, s.phase = .run .enc 1 2 n
    ∧ s.keyValid = true ∧ undisturbed (17 - n.val) s.presented s.inputs = true :=
  fun n => ⟨stateOf (some 7) (.run .enc 1 2 n) [quiet], rfl, rfl, by revert n; decide⟩
theorem witness_StepsAgreeWithEncodeAndDecode : ∀ dir : Dir, ∃ s : State, s.phase = .idle ∧ s.key = some 7
    ∧ s.sample.rst = false ∧ s.hostStable = true ∧ s.sample.cmd = some (encode (dataInstr dir 5))
    ∧ decode (encode (dataInstr dir 5)) = dataInstr dir 5 ∧ undisturbed 17 none s.inputs.tail = true :=
  fun dir => ⟨readyFor (dataInstr dir 5), rfl, rfl, rfl, rfl, rfl, by cases dir <;> decide, rfl⟩
theorem witness_ResponseDependsOnKeyAndOperandOnly : ∃ s u : State, s ≠ u ∧ s.phase = .idle ∧ u.phase = .idle
    ∧ s.key = some 7 ∧ u.key = some 7 ∧ s.sample.rst = false ∧ u.sample.rst = false ∧ s.hostStable = true
    ∧ u.hostStable = true ∧ s.sample.cmd = some (encode (.enc 5)) ∧ u.sample.cmd = some (encode (.enc 5))
    ∧ decode (encode (.enc 5)) = dataInstr .enc 5 ∧ undisturbed 17 none s.inputs.tail = true
    ∧ undisturbed 17 none u.inputs.tail = true :=
  ⟨readyFor (.enc 5), { readyFor (.enc 5) with received := [⟨.errOp, 0⟩] }, by decide⟩
theorem witness_CommandsAreAnsweredInOrder : ∃ u, runWith fixA 2 (readyFor (.ldkey 9)) = .next u ∧ u.phase = .idle
    ∧ acceptedIn fixA 2 (readyFor (.ldkey 9)) = [.ldkey 9]
    ∧ ∀ d ∈ (readyFor (.ldkey 9)).inputs.take 2, d.rst = false :=
  ⟨{ stateOf (some 9) .idle [] with received := [⟨.ok, 0⟩] }, by rfl, rfl, by decide, by decide⟩
theorem witness_StepSequenceDoesNotDependOnData : SameControl (readyFor (.ldkey 1)) (readyFor (.ldkey 2))
    ∧ ∃ s' u', stepWith fixA (readyFor (.ldkey 1)) = .next s' ∧ stepWith fixA (readyFor (.ldkey 2)) = .next u' :=
  ⟨⟨rfl, rfl, rfl, by decide⟩, stateOf (some 1) (.done ⟨.ok, 0⟩) [], stateOf (some 2) (.done ⟨.ok, 0⟩) [], by rfl, by rfl⟩
theorem witness_EndedRunsStayEnded : RunEnded State.reset ∧ RunEnded (stateOf (some 7) .idle [quiet]) := by decide
theorem witness_EqualRoundKeysMakeEncodeAnInvolution :
    (∀ i < 63, (0x8000000000000000 : MasterKey).getLsbD i = false)
    ∧ ∀ i < 63, (0xFFFFFFFFFFFFFFFF : MasterKey).getLsbD i = true := by decide
theorem witness_ConstantRoundFunctionSwapsTheHalves : ∀ h kr, fround default h kr = permute default 0 := by
  have h : ∀ row col, stabEntry default row col = 0 := by decide
  intro a b
  simp [fround, subst, sbox6, h]
theorem witness_RoundKeyIsAWindowOfTheMasterKey : (47 : Nat) < 48 := by decide
theorem witness_RoundKeyScheduleProperties :
    (∀ b ∈ [0, 46, 47, 48, 62], ∃ i : Fin 16, b ≤ 62 ∧ b - 47 ≤ i.val ∧ i.val ≤ b)
    ∧ (∃ i j : Fin 16, j.val = i.val + 1) ∧ ∀ b ≤ 62, (0x7FFFFFFFFFFFFFFF : MasterKey).getLsbD b = true := by decide
theorem witness_PermuteIsABijectionExactlyForPermutationTables :
    ∀ v, 1 ≤ v → v ≤ 32 → ∃ i : Fin 32, ptabEntry fixA i = v := by
  have h : ∀ v < 33, 1 ≤ v → ∃ i : Fin 32, ptabEntry fixA i = v := by decide +kernel
  exact fun v h1 h2 => h v (by omega) h1
theorem witness_SboxGroupSelectsItsCell : (1 : Fin 4).val = 2 * ((0x2A : SboxGroup).getLsbD 0).toNat
      + ((0x2A : SboxGroup).getLsbD 5).toNat
    ∧ (10 : Fin 16).val = 8 * ((0x2A : SboxGroup).getLsbD 1).toNat + 4 * ((0x2A : SboxGroup).getLsbD 2).toNat
      + 2 * ((0x2A : SboxGroup).getLsbD 3).toNat + ((0x2A : SboxGroup).getLsbD 4).toNat := by decide
theorem witness_SubstLooksUpGroupByGroup : (0xFC0000000000 : RoundKey).extractLsb' (6 * 7) 6
    = (0xFFFFFFFFFFFF : RoundKey).extractLsb' (6 * 7) 6 := by decide
theorem witness_MixIsBitwiseXor : (47 : Nat) < 48 := by decide
theorem witness_RoundFunctionDependsOnTheMixedValue : ∀ row col, stabEntry default row col = (0 : Nibble) := by decide
theorem witness_IllFormedTablesAreRefused : ∃ t, tablesOfRaw rawFixA = some t := ⟨fixA, test_tablesOfRaw_fixA⟩
theorem witness_ResponseWordsReadBack : decodeResponse 0x20000000000000000 = .ok ⟨.errOp, 0⟩ := by decide
theorem witness_TextPackingIsLittleEndianAndInvertible : ∃ (c : Fin 8) (j : Nat), j < 8 ∧ 8 * c.val + j = 63 :=
  ⟨7, 7, by decide⟩
theorem witness_CommandTextDeterminesTheAction :
    actionText (.command (.enc 1)) = actionText (.command (.enc 1)) := rfl

end Sys2Proof.Tests
end

/-!
PROOFS. The family 10_state.md: the state after reset (R25), the transitions of `PHASE` (R14), and the tables that
plain integers stand for (R23).
-/

/-! ### The state after reset -/

namespace Sys2Proof.Machine

/-- A register `RK[i]` holds no value without a key (10_state.md R13). -/
theorem roundKey_noKey {s : State} (h : s.key = none) (i : Fin 16) : s.roundKey i = none := by
  simp [State.roundKey, h]

/-- In IDLE `cmd_ready` follows `rst` (30_encoding.md R40). -/
theorem cmdReady_idle {s : State} (h : s.phase = .idle) : s.cmdReady = !s.sample.rst := by
  simp [State.cmdReady, h]

/-- In IDLE no response is offered (30_encoding.md R40). -/
theorem rspValid_idle {s : State} (h : s.phase = .idle) : s.rspValid = false := by
  simp [State.rspValid, h]

end Sys2Proof.Machine

section
open Sys2Proof Sys2Proof.Machine

/-- Settles O15: reset is IDLE without a key, and in IDLE the outputs follow `rst`. -/
theorem resetStateIsIdleWithoutKey : Obligations.ResetStateIsIdleWithoutKey := by
  unfold Obligations.ResetStateIsIdleWithoutKey
  refine ⟨rfl, rfl, roundKey_noKey rfl, rfl, fun ds hrst => ⟨?_, rspValid_idle rfl⟩⟩
  rw [cmdReady_idle rfl, hrst, Bool.not_false]

end

/-! ### The transitions of `PHASE` -/

namespace Sys2Proof.Machine

/-- The phase after an ACCEPT: RUN with `RND = 0` for a data command with a key, DONE for every other command
(44_engine.md R102 to R105). -/
theorem exec_phase {i : Instr} {s u : State} (hp : s.phase = .idle) (h : exec i s = .next u) :
    (s.keyValid = true ∧ ∃ dir b l r, i = dataInstr dir b ∧ u.phase = .run dir l r 0)
    ∨ (s.keyValid = false ∧ ∃ dir b rsp, i = dataInstr dir b ∧ u.phase = .done rsp)
    ∨ ∃ d rsp, (i = .ldkey d ∨ i = .rsvd d) ∧ u.phase = .done rsp := by
  obtain ⟨k, hi, he⟩ | ⟨dir, b, k, hi, hk, he⟩ | ⟨b, hi, hk, he⟩ | ⟨d, hi, he⟩ := exec_cases i s hp
    <;> (rw [he] at h; cases h)
  case inl => exact .inr (.inr ⟨k, _, .inl hi, rfl⟩)
  case inr.inl =>
    have hdata : i = dataInstr dir b := by
      obtain ⟨rfl, rfl⟩ | ⟨rfl, rfl⟩ := hi <;> rfl
    exact .inl ⟨by simp [State.keyValid, hk], dir, b, _, _, hdata, rfl⟩
  case inr.inr.inl =>
    obtain ⟨dir, hdata⟩ : ∃ dir, i = dataInstr dir b := hi.elim (⟨.enc, ·⟩) (⟨.dec, ·⟩)
    exact .inr (.inl ⟨by simp [State.keyValid, hk], dir, b, _, hdata, rfl⟩)
  case inr.inr.inr => exact .inr (.inr ⟨d, _, .inr hi, rfl⟩)

end Sys2Proof.Machine

section
open Sys2Proof Sys2Proof.Machine

/-- Settles O18: each kind of step that `stepWith_cases` lists is one of the transitions of 10_state.md R14. -/
theorem phaseTransitions : Obligations.PhaseTransitions := by
  unfold Obligations.PhaseTransitions
  intro t s u h
  obtain ⟨hrst, rfl⟩ | ⟨hrst, -, hstep⟩ := stepWith_cases h
  · exact .inl ⟨hrst, rfl⟩
  refine .inr ⟨hrst, ?_⟩
  obtain ⟨hp, hcmd, rfl⟩ | ⟨w, hp, hcmd, hexec⟩ | ⟨dir, l, r, rnd, k, hrnd, hp, -, rfl⟩
    | ⟨dir, l, r, rnd, hp, hrnd, rfl⟩ | ⟨rsp, hp, hready, rfl⟩ | ⟨rsp, hp, hready, rfl⟩ := hstep
    <;> simp only [hp]
  · exact .inl ⟨hcmd, hp⟩
  · exact .inr ⟨w, hcmd, exec_phase (s := s.sampled.commandTaken) hp hexec⟩
  · exact .inl ⟨_, _, _, hrnd, rfl, rfl⟩
  · exact .inr ⟨hrnd, _, rfl⟩
  · exact .inr ⟨hready, rfl⟩
  · exact .inl ⟨hready, hp⟩

end

/-! ### The tables that plain integers stand for -/

namespace Sys2Proof

/-- The check of a triple of tables, in the words of 10_state.md R20 to R23. -/
theorem RawTables.wellFormed_iff (r : RawTables) : r.wellFormed = true ↔
    r.etab.length = 48 ∧ (∀ v ∈ r.etab, 1 ≤ v ∧ v ≤ 32)
    ∧ r.ptab.length = 32 ∧ (∀ v ∈ r.ptab, 1 ≤ v ∧ v ≤ 32)
    ∧ r.stab.length = 4 ∧ ∀ row ∈ r.stab, row.length = 16 ∧ ∀ v ∈ row, v ≤ 15 := by
  simp [wellFormed, etabOk, ptabOk, stabOk, and_assoc]

end Sys2Proof

namespace Sys2Proof.Machine

/-- Exactly the well-formed tables have a meaning. -/
theorem exists_tablesOfRaw_iff (r : RawTables) : (∃ t, tablesOfRaw r = some t) ↔ r.wellFormed = true := by
  simp [tablesOfRaw]

/-- Each table of the meaning is read off its own list. -/
theorem tablesOfRaw_fields {r : RawTables} {t : Tables} (h : tablesOfRaw r = some t) :
    t.etab = vectorOfList 48 0 (r.etab.map selectorOfEntry)
    ∧ t.ptab = vectorOfList 32 0 (r.ptab.map selectorOfEntry)
    ∧ t.stab = vectorOfList 4 (vectorOfList 16 0 [])
        (r.stab.map fun row => vectorOfList 16 0 (row.map (BitVec.ofNat 4))) := by
  unfold tablesOfRaw at h
  split at h
  · cases h; exact ⟨rfl, rfl, rfl⟩
  · cases h

@[simp] theorem getElem_vectorOfList {α : Type} {n : Nat} (d : α) (l : List α) {i : Nat} (h : i < n) :
    (vectorOfList n d l)[i] = l.getD i d := by
  simp [vectorOfList]

/-- Where the mapped list is long enough, the vector's entry is the image of the list's. -/
theorem getElem_vectorOfList_map {α β : Type} {n : Nat} (d : β) (f : α → β) {l : List α} {i : Nat} (h : i < n)
    (hl : l.length = n) : (vectorOfList n d (l.map f))[i] = f (l[i]'(hl ▸ h)) := by
  simp [List.getElem?_eq_getElem (hl ▸ h : i < l.length)]

/-- An entry in 1..32 is neither clamped nor reduced (10_state.md R23). -/
theorem selectorOfEntry_val {v : Nat} (h : 1 ≤ v ∧ v ≤ 32) : (selectorOfEntry v).val + 1 = v := by
  simp only [selectorOfEntry, Fin.ofNat]
  omega

/-- A list of `n` entries in 1..32 is read back from its vector of selectors. -/
theorem getElem?_eq_selector {n : Nat} {l : List Nat} (hl : l.length = n) (hv : ∀ v ∈ l, 1 ≤ v ∧ v ≤ 32)
    (i : Fin n) : l[i.val]? = some ((vectorOfList n 0 (l.map selectorOfEntry))[i].val + 1) := by
  have hi : i.val < l.length := by omega
  rw [Fin.getElem_fin, getElem_vectorOfList_map 0 selectorOfEntry i.isLt hl,
    selectorOfEntry_val (hv _ (List.getElem_mem hi)), List.getElem?_eq_getElem hi]

/-- A row of 16 entries in 0..15 is read back from its vector of nibbles. -/
theorem getElem?_eq_nibble {row : List Nat} (hl : row.length = 16) (hv : ∀ v ∈ row, v ≤ 15) (j : Fin 16) :
    row[j.val]? = some ((vectorOfList 16 (0 : Nibble) (row.map (BitVec.ofNat 4)))[j]).toNat := by
  have hj : j.val < row.length := by omega
  have hle : row[j.val] ≤ 15 := hv _ (List.getElem_mem hj)
  rw [Fin.getElem_fin, getElem_vectorOfList_map 0 (BitVec.ofNat 4) j.isLt hl, BitVec.toNat_ofNat,
    Nat.mod_eq_of_lt (by omega), List.getElem?_eq_getElem hj]

end Sys2Proof.Machine

section
open Sys2Proof Sys2Proof.Machine

/-- Settles O45: `wellFormed` decides the meaning, and a well-formed list is read back entry by entry. -/
theorem illFormedTablesAreRefused : Obligations.IllFormedTablesAreRefused := by
  unfold Obligations.IllFormedTablesAreRefused
  intro r
  refine ⟨(exists_tablesOfRaw_iff r).trans r.wellFormed_iff, fun t h => ?_⟩
  obtain ⟨hel, hev, hpl, hpv, hsl, hsv⟩ := r.wellFormed_iff.1 ((exists_tablesOfRaw_iff r).1 ⟨t, h⟩)
  obtain ⟨hetab, hptab, hstab⟩ := tablesOfRaw_fields h
  refine ⟨fun i => ?_, fun i => ?_, fun i j => ?_⟩
  · rw [etabEntry, hetab]
    exact getElem?_eq_selector hel hev i
  · rw [ptabEntry, hptab]
    exact getElem?_eq_selector hpl hpv i
  · have hi : i.val < r.stab.length := by omega
    obtain ⟨hlen, hrow⟩ := hsv _ (List.getElem_mem hi)
    rw [stabEntry, hstab, Fin.getElem_fin (i := i), getElem_vectorOfList_map _ _ i.isLt hsl,
      List.getElem?_eq_getElem hi, Option.bind_some]
    exact getElem?_eq_nibble hlen hrow j

end

/-!
PROOFS. The family 20_memory.md: the packing of eight bytes into a block and its inverse (R30).
-/

namespace Sys2Proof.Machine

theorem getLsbD_append_byte_lt {w : Nat} (x : BitVec w) (y : Byte) {j : Nat} (hj : j < 8) :
    (x ++ y).getLsbD j = y.getLsbD j := by
  rw [BitVec.getLsbD_append, if_pos hj]

/-- Appending a byte moves every bit up by eight places. -/
theorem getLsbD_append_byte_add {w : Nat} (x : BitVec w) (y : Byte) (c j : Nat) :
    (x ++ y).getLsbD (8 * (c + 1) + j) = x.getLsbD (8 * c + j) := by
  rw [BitVec.getLsbD_append, if_neg (by omega)]
  congr 1
  omega

/-- Byte `c` fills the bits `8c+7 : 8c` of the packed block: `c` appended bytes lie below it (20_memory.md R30). -/
theorem getLsbD_packBytes (bytes : Vector Byte 8) (c : Fin 8) {j : Nat} (hj : j < 8) :
    (packBytes bytes).getLsbD (8 * c.val + j) = bytes[c].getLsbD j := by
  fin_cases c <;>
    simp only [packBytes, getLsbD_append_byte_add, Nat.mul_zero, Nat.zero_add, getLsbD_append_byte_lt, hj,
      Fin.getElem_fin]

/-- Entry `c` of the unpacked block is its byte `c`. -/
theorem getElem_unpackBytes (b : Block) (c : Fin 8) : (unpackBytes b)[c] = byteOf b c.val := by
  fin_cases c <;> rfl

theorem getLsbD_byteOf (b : Block) (c : Nat) {j : Nat} (hj : j < 8) :
    (byteOf b c).getLsbD j = b.getLsbD (8 * c + j) := by
  simp [byteOf, hj]

theorem byteOf_packBytes (bytes : Vector Byte 8) (c : Fin 8) : byteOf (packBytes bytes) c.val = bytes[c] :=
  BitVec.eq_of_getLsbD_eq fun _ hj => (getLsbD_byteOf _ _ hj).trans (getLsbD_packBytes bytes c hj)

theorem unpackBytes_packBytes (bytes : Vector Byte 8) : unpackBytes (packBytes bytes) = bytes :=
  Vector.ext fun c hc => (getElem_unpackBytes _ ⟨c, hc⟩).trans (byteOf_packBytes bytes ⟨c, hc⟩)

theorem packBytes_unpackBytes (b : Block) : packBytes (unpackBytes b) = b := by
  refine BitVec.eq_of_getLsbD_eq fun i hi => ?_
  have hj : i % 8 < 8 := Nat.mod_lt i (by decide)
  have hbit := getLsbD_packBytes (unpackBytes b) ⟨i / 8, by omega⟩ hj
  rwa [getElem_unpackBytes, getLsbD_byteOf b _ hj, Nat.div_add_mod] at hbit

end Sys2Proof.Machine

section
open Sys2Proof Sys2Proof.Machine

/-- Settles O50: the packed block bit by bit, and both inverses from the bits. -/
theorem textPackingIsLittleEndianAndInvertible : Obligations.TextPackingIsLittleEndianAndInvertible := by
  unfold Obligations.TextPackingIsLittleEndianAndInvertible
  exact ⟨fun bytes c _ hj => getLsbD_packBytes bytes c hj, unpackBytes_packBytes, packBytes_unpackBytes⟩

end

/-!
PROOFS. The family 30_encoding.md: the decoder by the opcode field, and its rows as match and mask (R43).
-/

namespace Sys2Proof.Machine

theorem opcode_decode (w : CommandWord) : opcode (decode w) = commandOp w := by
  have htotal : ∀ op : BitVec 2, op = 0b00 ∨ op = 0b01 ∨ op = 0b10 ∨ op = 0b11 := by decide
  obtain h | h | h | h := htotal (commandOp w) <;> simp [decode, opcode, h]

theorem decode_encode (i : Instr) : decode (encode i) = i := by
  cases i <;> simp [decode, opcode, operandOf]

/-- A word with the operand of `i` decodes to `i` exactly when it has the opcode of `i` (30_encoding.md R43). -/
theorem decode_eq_iff_commandOp {w : CommandWord} {i : Instr} (hdata : commandData w = operandOf i) :
    decode w = i ↔ commandOp w = opcode i where
  mp h := by rw [← opcode_decode, h]
  mpr hop := by
    have hw : w = encode i := by rw [← commandOp_append_commandData w, hop, hdata, encode]
    rw [hw, decode_encode]

end Sys2Proof.Machine

namespace Sys2Proof.Laws.CommandRow
open Sys2Proof.Machine

/-- A row's match is its opcode over a cleared operand. -/
theorem rowMatch_eq (i : Instr) : rowMatch i = opcode i ++ (0 : Block) := by
  cases i <;> simp only [rowMatch, opcode] <;> decide

theorem commandOp_append (op : BitVec 2) (d : Block) : commandOp (op ++ d) = op :=
  BitVec.extractLsb'_append_eq_left

/-- The mask keeps the opcode and nothing else, so a word matches a row exactly when it has the row's opcode. -/
theorem and_mask_eq_rowMatch_iff (w : CommandWord) (i : Instr) :
    w &&& 0x30000000000000000 = rowMatch i ↔ commandOp w = opcode i := by
  have hmask : w &&& 0x30000000000000000 = commandOp w ++ (0 : Block) := by
    rw [← append_and_mask, commandOp_append_commandData]
  rw [hmask, rowMatch_eq]
  refine ⟨fun h => ?_, fun h => by rw [h]⟩
  rw [← commandOp_append (commandOp w) 0, h, commandOp_append]

/-- A word matches the row of a command with its operand exactly when it decodes to that command. -/
theorem and_mask_eq_rowMatch_iff_decode {w : CommandWord} {i : Instr} (hdata : commandData w = operandOf i) :
    w &&& 0x30000000000000000 = rowMatch i ↔ decode w = i :=
  (and_mask_eq_rowMatch_iff w i).trans (decode_eq_iff_commandOp hdata).symm

end Sys2Proof.Laws.CommandRow

section
open Sys2Proof Sys2Proof.Laws.CommandRow

/-- Settles O47: match and mask compare the opcode, which alone decides what the decoder answers. -/
theorem decoderFollowsMatchAndMask : Obligations.DecoderFollowsMatchAndMask := by
  unfold Obligations.DecoderFollowsMatchAndMask
  intro w
  exact ⟨and_mask_eq_rowMatch_iff_decode (i := .ldkey (commandData w)) rfl,
    and_mask_eq_rowMatch_iff_decode (i := .enc (commandData w)) rfl,
    and_mask_eq_rowMatch_iff_decode (i := .dec (commandData w)) rfl,
    and_mask_eq_rowMatch_iff_decode (i := .rsvd (commandData w)) rfl⟩

end

/-!
PROOFS. The family 40_key_schedule.md: a round key is a window of the master key (R60), and the properties that follow
(R62).
-/

namespace Sys2Proof.Machine

theorem getLsbD_ks (k : MasterKey) (i : Fin 16) {j : Nat} (hj : j < 48) :
    (ks k i).getLsbD j = k.getLsbD (i.val + j) := by
  simp [ks, hj]

/-- Key bit `b` stands at position `b - i` of round key `i` (40_key_schedule.md R62, item 2). -/
theorem getLsbD_ks_sub (k : MasterKey) (i : Fin 16) {b : Nat} (hlo : b - 47 ≤ i.val) (hhi : i.val ≤ b) :
    (ks k i).getLsbD (b - i.val) = k.getLsbD b := by
  rw [getLsbD_ks k i (by omega), Nat.add_sub_of_le hhi]

/-- The window of the next round key lies one bit higher (R62, item 3). -/
theorem getLsbD_ks_next (k : MasterKey) {i j : Fin 16} (hij : j.val = i.val + 1) {m : Nat} (hm : m < 48) :
    (ks k j).getLsbD m = k.getLsbD (i.val + (m + 1)) := by
  rw [getLsbD_ks k j hm, hij, Nat.add_assoc, Nat.add_comm 1 m]

/-- The windows reach no further than `K[62]`, so where those bits are all equal there is one round key
(R62, item 4). -/
theorem ks_eq_of_low_bits_const {k : MasterKey} {c : Bool} (h : ∀ b ≤ 62, k.getLsbD b = c) (i j : Fin 16) :
    ks k i = ks k j := by
  refine BitVec.eq_of_getLsbD_eq fun m hm => ?_
  rw [getLsbD_ks k i hm, getLsbD_ks k j hm, h (i.val + m) (by omega), h (j.val + m) (by omega)]

/-- A window of an exclusive or is the exclusive or of the windows (R62, item 5). -/
theorem ks_xor (a b : MasterKey) (i : Fin 16) : ks (a ^^^ b) i = ks a i ^^^ ks b i := by
  refine BitVec.eq_of_getLsbD_eq fun m hm => ?_
  simp only [BitVec.getLsbD_xor, getLsbD_ks _ i hm]

theorem ks_topBit : ∀ i : Fin 16, ks 0x8000000000000000 i = 0 := by decide

theorem ks_one : ∀ i : Fin 16, ks 1 i = if i = 0 then 1 else 0 := by decide

/-- `K[63]` is selected by no round key (R62, item 1). -/
theorem ks_xor_topBit (k : MasterKey) (i : Fin 16) : ks (k ^^^ 0x8000000000000000) i = ks k i := by
  rw [ks_xor, ks_topBit]
  exact BitVec.xor_zero

/-- `K[0]` is selected by round key 0 alone, as its bit 0 (R62, item 2). -/
theorem ks_xor_one (k : MasterKey) (i : Fin 16) : ks (k ^^^ 1) i = if i = 0 then ks k i ^^^ 1 else ks k i := by
  rw [ks_xor, ks_one]
  split
  · rfl
  · exact BitVec.xor_zero

/-- The keys whose round keys are all zeros or all ones (R62, item 4). -/
theorem ks_constant_keys : ∀ i : Fin 16,
    ks 0 i = 0 ∧ ks 0xFFFFFFFFFFFFFFFF i = 0xFFFFFFFFFFFF ∧ ks 0x7FFFFFFFFFFFFFFF i = 0xFFFFFFFFFFFF := by
  decide

end Sys2Proof.Machine

section
open Sys2Proof Sys2Proof.Machine

/-- Settles O35: the shift and the cut to 48 bits, bit by bit. -/
theorem roundKeyIsAWindowOfTheMasterKey : Obligations.RoundKeyIsAWindowOfTheMasterKey := by
  unfold Obligations.RoundKeyIsAWindowOfTheMasterKey
  exact fun k i _ hj => getLsbD_ks k i hj

/-- Settles O36: every item is read off the window, or off linearity and the round keys of one constant key. -/
theorem roundKeyScheduleProperties : Obligations.RoundKeyScheduleProperties := by
  unfold Obligations.RoundKeyScheduleProperties
  refine ⟨ks_xor_topBit, ks_xor_one, fun k i _ _ hlo hhi => getLsbD_ks_sub k i hlo hhi,
    fun k i j hij => ⟨fun m hm => ?_, getLsbD_ks_next k hij (by decide)⟩, ks_constant_keys,
    fun _ _ i j h => ks_eq_of_low_bits_const h i j, ks_xor⟩
  rw [getLsbD_ks_next k hij (by omega), getLsbD_ks k i (by omega)]

end

/-!
PROOFS. The family 41_bit_permutation.md: what every bit selection does (R70), the expansion (R71), and the two named
identity stages (R73, R74).
-/

namespace Sys2Proof.Machine

theorem getLsbD_bitsel {n : Nat} (x : HalfBlock) (table : Fin n → Nat) (i : Fin n) :
    (bitsel x table).getLsbD i.val = x.getLsbD (32 - table i) := by
  rw [BitVec.getLsbD_eq_getElem i.isLt, getElem_bitsel]

theorem bitsel_zero {n : Nat} (table : Fin n → Nat) : bitsel 0 table = 0 := by
  ext i hi
  simp [getElem_bitsel]

/-- With no entry 0, every output bit copies a bit of the input, and all of these are 1 (41_bit_permutation.md R70). -/
theorem bitsel_allOnes {n : Nat} {table : Fin n → Nat} (h : ∀ i, 1 ≤ table i) :
    bitsel (BitVec.allOnes 32) table = BitVec.allOnes n := by
  ext i hi
  have hin : 32 - table ⟨i, hi⟩ < 32 := Nat.sub_lt (by decide) (h ⟨i, hi⟩)
  rw [getElem_bitsel, BitVec.getLsbD_eq_getElem hin, BitVec.getElem_allOnes, BitVec.getElem_allOnes]

theorem bitsel_xor {n : Nat} (a b : HalfBlock) (table : Fin n → Nat) :
    bitsel (a ^^^ b) table = bitsel a table ^^^ bitsel b table := by
  ext i hi
  simp [getElem_bitsel]

end Sys2Proof.Machine

section
open Sys2Proof Sys2Proof.Machine

/-- Settles O37: the expansion is the bit selection by `ETAB`, whose entries stay in 1..32. -/
theorem expandSelectsBits : Obligations.ExpandSelectsBits := by
  unfold Obligations.ExpandSelectsBits
  intro t
  exact ⟨fun x i => getLsbD_bitsel x (etabEntry t) i, etabEntry_bounds t, bitsel_zero (etabEntry t),
    bitsel_allOnes fun i => (etabEntry_bounds t i).1, fun a b => bitsel_xor a b (etabEntry t)⟩

/-- Settles O44: both stages are the identity by definition. -/
theorem initialAndFinalPermutationAreIdentity : Obligations.InitialAndFinalPermutationAreIdentity := by
  unfold Obligations.InitialAndFinalPermutationAreIdentity
  exact fun _ => ⟨rfl, rfl⟩

end

/-!
PROOFS. The family 42_sbox.md: the row and column of a group and the group of a cell (R80), and SUBST nibble by
nibble (R81).
-/

namespace Sys2Proof.Machine

theorem toNat_sboxRow : ∀ g : SboxGroup,
    (sboxRow g).toNat = 2 * (g.getLsbD 0).toNat + (g.getLsbD 5).toNat := by
  decide

theorem toNat_sboxCol : ∀ g : SboxGroup,
    (sboxCol g).toNat = 8 * (g.getLsbD 1).toNat + 4 * (g.getLsbD 2).toNat + 2 * (g.getLsbD 3).toNat
      + (g.getLsbD 4).toNat := by
  decide

/-- The lookup reads its row and column as they are: `mod 4` and `mod 16` change neither (42_sbox.md R80). -/
theorem sbox6_eq_stabEntry (t : Tables) {g : SboxGroup} {row : Fin 4} {col : Fin 16}
    (hrow : row.val = (sboxRow g).toNat) (hcol : col.val = (sboxCol g).toNat) : sbox6 t g = stabEntry t row col := by
  have hr : Fin.ofNat 4 (sboxRow g).toNat = row := Fin.ext (by rw [← hrow]; exact Nat.mod_eq_of_lt row.isLt)
  have hc : Fin.ofNat 16 (sboxCol g).toNat = col := Fin.ext (by rw [← hcol]; exact Nat.mod_eq_of_lt col.isLt)
  rw [sbox6, hr, hc]

/-- The group that selects the cell at a row and a column: the row's two bits go to `G[0]` and `G[5]`, the column's
four to `G[1]`, `G[2]`, `G[3]` and `G[4]`, the highest first (42_sbox.md R80). -/
def groupOfCell (row col : Nat) : SboxGroup :=
  BitVec.ofFnLE ![row.testBit 1, col.testBit 3, col.testBit 2, col.testBit 1, col.testBit 0, row.testBit 0]

theorem toNat_sboxRow_groupOfCell : ∀ (row : Fin 4) (col : Fin 16),
    (sboxRow (groupOfCell row.val col.val)).toNat = row.val := by
  decide

theorem toNat_sboxCol_groupOfCell : ∀ (row : Fin 4) (col : Fin 16),
    (sboxCol (groupOfCell row.val col.val)).toNat = col.val := by
  decide

theorem groupOfCell_sboxRow_sboxCol : ∀ g : SboxGroup,
    groupOfCell (sboxRow g).toNat (sboxCol g).toNat = g := by
  decide

/-- Groups and cells correspond one to one (42_sbox.md R80). -/
theorem selects_iff_eq_groupOfCell (row : Fin 4) (col : Fin 16) (g : SboxGroup) :
    row.val = (sboxRow g).toNat ∧ col.val = (sboxCol g).toNat ↔ g = groupOfCell row.val col.val where
  mp := fun ⟨hrow, hcol⟩ => by rw [hrow, hcol, groupOfCell_sboxRow_sboxCol]
  mpr h := by
    rw [h]
    exact ⟨(toNat_sboxRow_groupOfCell row col).symm, (toNat_sboxCol_groupOfCell row col).symm⟩

/-- Appending a nibble moves every nibble up by one place. -/
theorem extractLsb'_append_nibble_succ {w : Nat} (x : BitVec w) (y : Nibble) (g : Nat) :
    (x ++ y).extractLsb' (4 * (g + 1)) 4 = x.extractLsb' (4 * g) 4 := by
  rw [BitVec.extractLsb'_append_eq_of_le (by omega)]
  rfl

/-- Nibble `g` of the substitution is the lookup of group `g`: `g` appended nibbles lie below it (42_sbox.md R81). -/
theorem extractLsb'_subst (t : Tables) (z : RoundKey) {g : Nat} (hg : g < 8) :
    (subst t z).extractLsb' (4 * g) 4 = sbox6 t (sboxGroup z g) := by
  interval_cases g <;>
    simp only [subst, extractLsb'_append_nibble_succ, Nat.mul_zero, BitVec.extractLsb'_append_eq_right]
  · exact BitVec.extractLsb'_eq_self

theorem sboxGroup_zero (g : Nat) : sboxGroup 0 g = 0 := BitVec.extractLsb'_zero

theorem sboxGroup_allOnes : ∀ g < 8, sboxGroup 0xFFFFFFFFFFFF g = 0b111111 := by
  decide

end Sys2Proof.Machine

section
open Sys2Proof Sys2Proof.Machine

/-- Settles O40: the row and column are sums of the group's bits, and a cell gives back the one group that selects
it. -/
theorem sboxGroupSelectsItsCell : Obligations.SboxGroupSelectsItsCell := by
  unfold Obligations.SboxGroupSelectsItsCell
  simp only [← toNat_sboxRow, ← toNat_sboxCol]
  refine ⟨fun t g row col hrow hcol => sbox6_eq_stabEntry t hrow hcol, fun row col => ?_⟩
  simp only [selects_iff_eq_groupOfCell]
  exact existsUnique_eq

/-- Settles O41: the lookup of group `g`, at the corner cases and for two values that agree in that group. -/
theorem substLooksUpGroupByGroup : Obligations.SubstLooksUpGroupByGroup := by
  unfold Obligations.SubstLooksUpGroupByGroup
  intro t
  refine ⟨fun z g hg => extractLsb'_subst t z hg, fun g hg => ?zeros, fun g hg => ?ones, fun y z g hg h => ?own⟩
  case zeros =>
    rw [extractLsb'_subst t 0 hg, sboxGroup_zero]
    exact sbox6_eq_stabEntry t (by decide) (by decide)
  case ones =>
    rw [extractLsb'_subst t _ hg, sboxGroup_allOnes g hg]
    exact sbox6_eq_stabEntry t (by decide) (by decide)
  case own =>
    rw [extractLsb'_subst t y hg, extractLsb'_subst t z hg, sboxGroup, sboxGroup, h]

end

/-!
PROOFS. The family 43_round_function.md: the mixing (R90), and the round function as a function of the mixed value
(R91).
-/

namespace Sys2Proof.Machine

theorem getLsbD_mix (y kr : RoundKey) (j : Nat) :
    (mix y kr).getLsbD j = Bool.xor (y.getLsbD j) (kr.getLsbD j) :=
  BitVec.getLsbD_xor

theorem mix_zero (y : RoundKey) : mix y 0 = y := BitVec.xor_zero

theorem zero_mix (kr : RoundKey) : mix 0 kr = kr := BitVec.zero_xor

theorem mix_self (y : RoundKey) : mix y y = 0 := BitVec.xor_self

theorem mix_allOnes (y : RoundKey) : mix y 0xFFFFFFFFFFFF = ~~~y := BitVec.xor_allOnes

/-- Zero expands to zero, so on it the round key itself is the mixed value (43_round_function.md R91). -/
theorem fround_zero (t : Tables) (z : RoundKey) : fround t 0 z = permute t (subst t z) := by
  have hexpand : expand t 0 = 0 := bitsel_zero (etabEntry t)
  rw [fround, hexpand, zero_mix]

/-- Group 0 selects the first cell of the table (42_sbox.md R80). -/
theorem sbox6_zero (t : Tables) : sbox6 t 0 = stabEntry t 0 0 :=
  sbox6_eq_stabEntry t (by decide) (by decide)

/-- Where every group looks up the same nibble, the substitution is that nibble eight times (42_sbox.md R81). -/
theorem subst_eq_of_sbox6_const {t : Tables} {z : RoundKey} {c : Nibble}
    (h : ∀ g, sbox6 t (sboxGroup z g) = c) : subst t z = c ++ c ++ c ++ c ++ c ++ c ++ c ++ c := by
  simp only [subst, h]

end Sys2Proof.Machine

section
open Sys2Proof Sys2Proof.Machine

/-- Settles O42: the laws of the exclusive or on 48 bits. -/
theorem mixIsBitwiseXor : Obligations.MixIsBitwiseXor := by
  unfold Obligations.MixIsBitwiseXor
  exact ⟨fun y kr j _ => getLsbD_mix y kr j, fun y => ⟨mix_zero y, mix_self y, mix_allOnes y⟩⟩

/-- Settles O43: on zero the round function takes the mixed value in place of the round key, and where all eight
lookups agree it permutes the nibble that they find. -/
theorem roundFunctionDependsOnTheMixedValue : Obligations.RoundFunctionDependsOnTheMixedValue := by
  unfold Obligations.RoundFunctionDependsOnTheMixedValue
  intro t
  refine ⟨fun _ _ => rfl, fun s hs => ?zeros, fun h kr => ?mixed, fun c hc h kr => ?const⟩
  case zeros =>
    have hlookup : ∀ g, sbox6 t (sboxGroup 0 g) = s := fun g => by rw [sboxGroup_zero, sbox6_zero, hs]
    rw [fround_zero, subst_eq_of_sbox6_const hlookup]
  case mixed =>
    rw [fround_zero, fround, mix]
  case const =>
    rw [fround, subst_eq_of_sbox6_const fun _ => hc _ _]

end

/-!
PROOFS. The family 44_engine.md: the meanings of LDKEY and RSVD (R102, R105), the steps ROUND, FINISH and DELIVER
(R106 to R109), the cipher (R110 to R117), and the agreement of the steps with it (R118).
-/

/-! ### The cipher -/

namespace Sys2Proof.Machine

/-- Where a round of `e` undoes a round of `d`, the rounds of `e` in reverse order undo those of `d`
(44_engine.md R112). -/
theorem rounds_reverse_rounds {t : Tables} {d e : Dir}
    (hround : ∀ kr p, roundHalves t kr e (roundHalves t kr d p) = p) (k : MasterKey) (order : List (Fin 16))
    (p : HalfBlock × HalfBlock) : rounds t k e order.reverse (rounds t k d order p) = p := by
  induction order generalizing p with
  | nil => rfl
  | cons i order ih => rw [rounds_cons, List.reverse_cons, rounds_append, ih, rounds_cons, rounds_nil, hround]

theorem decodeBlock_encodeBlock (t : Tables) (k : MasterKey) (b : Block) :
    decodeBlock t k (encodeBlock t k b) = b := by
  unfold decodeBlock encodeBlock cipher
  rw [splitBlock_dec_joinHalves_enc, indexOrder, indexOrder, rounds_reverse_rounds (roundHalves_dec_enc t),
    joinHalves_dec_splitBlock_enc]

theorem encodeBlock_decodeBlock (t : Tables) (k : MasterKey) (b : Block) :
    encodeBlock t k (decodeBlock t k b) = b := by
  have hrounds := rounds_reverse_rounds (roundHalves_enc_dec t) k roundOrder.reverse (splitBlock .dec b)
  rw [List.reverse_reverse] at hrounds
  unfold encodeBlock decodeBlock cipher
  rw [splitBlock_enc_joinHalves_dec, indexOrder, indexOrder, hrounds, joinHalves_enc_splitBlock_dec]

/-- A decode round is the encode round with the halves swapped before and after (44_engine.md R114). -/
theorem roundHalves_dec_eq_swap (t : Tables) (kr : RoundKey) (p : HalfBlock × HalfBlock) :
    roundHalves t kr .dec p = (roundHalves t kr .enc p.swap).swap := rfl

/-- The inner swaps cancel, so only the outermost ones are left. -/
theorem rounds_dec_eq_swap (t : Tables) (k : MasterKey) (order : List (Fin 16)) (p : HalfBlock × HalfBlock) :
    rounds t k .dec order p = (rounds t k .enc order p.swap).swap := by
  induction order generalizing p with
  | nil => rfl
  | cons i order ih => rw [rounds_cons, ih, roundHalves_dec_eq_swap, Prod.swap_swap, rounds_cons]

theorem splitBlock_dec_swap (b : Block) : (splitBlock .dec b).swap = splitBlock .enc b := rfl

theorem joinHalves_dec_swap (p : HalfBlock × HalfBlock) : joinHalves .dec p.swap = joinHalves .enc p := rfl

theorem decodeBlock_eq_decodeClassical (t : Tables) (k : MasterKey) (c : Block) :
    decodeBlock t k c = decodeClassical t k c := by
  rw [decodeBlock, cipher, indexOrder, rounds_dec_eq_swap, splitBlock_dec_swap, joinHalves_dec_swap,
    decodeClassical]

/-- The cipher reads the key through its round keys alone. -/
theorem cipher_congr_ks {k k' : MasterKey} (h : ∀ i, ks k i = ks k' i) (t : Tables) (dir : Dir) (b : Block) :
    cipher t dir k b = cipher t dir k' b := by
  simp only [cipher, rounds, h]

/-- With one and the same round key in every round, only the number of rounds counts (44_engine.md R117). -/
theorem rounds_eq_iterate {k : MasterKey} (h : ∀ i j, ks k i = ks k j) (t : Tables) (dir : Dir)
    (order : List (Fin 16)) (p : HalfBlock × HalfBlock) :
    rounds t k dir order p = (roundHalves t (ks k 0) dir)^[order.length] p := by
  simp only [rounds, h _ 0, List.foldl_const]

/-- With equal round keys their reversal is no change (44_engine.md R117). -/
theorem decodeBlock_eq_encodeBlock {k : MasterKey} (h : ∀ i j, ks k i = ks k j) (t : Tables) (b : Block) :
    decodeBlock t k b = encodeBlock t k b := by
  rw [decodeBlock_eq_decodeClassical, decodeClassical, rounds_eq_iterate h, List.length_reverse,
    ← rounds_eq_iterate h, encodeBlock, cipher, indexOrder]

end Sys2Proof.Machine

section
open Sys2Proof Sys2Proof.Machine

/-- Settles O30: each direction undoes the other round by round, the last round first. -/
theorem encodeAndDecodeAreInverse : Obligations.EncodeAndDecodeAreInverse := by
  unfold Obligations.EncodeAndDecodeAreInverse
  exact fun t k b => ⟨decodeBlock_encodeBlock t k b, encodeBlock_decodeBlock t k b⟩

/-- Settles O31: decode is encode with the halves swapped, and the swaps are in the split and the join. -/
theorem decodeIsEncodeWithReversedKeys : Obligations.DecodeIsEncodeWithReversedKeys := by
  unfold Obligations.DecodeIsEncodeWithReversedKeys
  exact decodeBlock_eq_decodeClassical

/-- Settles O32: no round key selects key bit 63. -/
theorem keyBit63HasNoEffect : Obligations.KeyBit63HasNoEffect := by
  unfold Obligations.KeyBit63HasNoEffect
  exact fun t k b => ⟨cipher_congr_ks (ks_xor_topBit k) t .enc b, cipher_congr_ks (ks_xor_topBit k) t .dec b⟩

/-- Settles O33: with equal round keys DECODE is ENCODE, which it undoes. -/
theorem equalRoundKeysMakeEncodeAnInvolution : Obligations.EqualRoundKeysMakeEncodeAnInvolution := by
  unfold Obligations.EqualRoundKeysMakeEncodeAnInvolution
  intro t k c b hbits
  have hks : ∀ i j, ks k i = ks k j := ks_eq_of_low_bits_const fun i hi => hbits i (by omega)
  have hdec := decodeBlock_eq_encodeBlock hks t
  refine ⟨hks, hdec b, ?_⟩
  rw [← hdec b, encodeBlock_decodeBlock]

end

/-! ### Commands and single steps -/

namespace Sys2Proof.Machine

/-- While a key is loaded every `RK[i]` holds its round key (10_state.md R13). -/
theorem roundKey_key {s : State} {k : MasterKey} (h : s.key = some k) (i : Fin 16) : s.roundKey i = some (ks k i) := by
  simp [State.roundKey, h]

theorem exec_ldkey {s : State} (hp : s.phase = .idle) (k : MasterKey) :
    exec (.ldkey k) s = .next (respond .ok 0 (loadKey k s)) := by
  rw [exec, execLdkey, accepting_idle hp]

theorem exec_rsvd {s : State} (hp : s.phase = .idle) (d : Block) :
    exec (.rsvd d) s = .next (raiseError .errOp s) := by
  rw [exec, execRsvd, accepting_idle hp]

/-- ENC and DEC with a key start the run in their direction (44_engine.md R103, R104). -/
theorem exec_dataInstr {s : State} {k : MasterKey} (hp : s.phase = .idle) (hk : s.key = some k) (dir : Dir)
    (b : Block) : exec (dataInstr dir b) s = .next (startRun dir b s) := by
  cases dir with
  | enc => rw [dataInstr, exec, execEnc, accepting_idle hp, dataCommand_key hk]
  | dec => rw [dataInstr, exec, execDec, accepting_idle hp, dataCommand_key hk]

section
variable {s : State} (t : Tables) (hrst : s.sample.rst = false) (hstable : s.hostStable = true)
include hrst hstable

theorem stepWith_accept {w : CommandWord} (hp : s.phase = .idle) (hcmd : s.sample.cmd = some w) :
    stepWith t s = exec (decode w) s.sampled.commandTaken := by
  rw [stepWith_stable t hrst hstable, engineStep_accept t (s := s.sampled) hp hcmd]

theorem stepWith_round {dir : Dir} {p : HalfBlock × HalfBlock} {rnd : Fin 17} {k : MasterKey}
    (hp : s.phase = .run dir p.1 p.2 rnd) (hk : s.key = some k) (h : rnd.val < 16) :
    stepWith t s = .next (setRun dir (roundHalves t (ks k (roundIndex dir rnd.val h)) dir p)
      ⟨rnd.val + 1, by omega⟩ s.sampled) := by
  rw [stepWith_stable t hrst hstable, engineStep_round t (s := s.sampled) hp hk h]

theorem stepWith_finish {dir : Dir} {p : HalfBlock × HalfBlock} (hp : s.phase = .run dir p.1 p.2 16) :
    stepWith t s = .next (respond .ok (joinHalves dir p) s.sampled) := by
  rw [stepWith_stable t hrst hstable, engineStep_finish t (s := s.sampled) hp (by decide)]

theorem stepWith_deliver {rsp : Response} (hp : s.phase = .done rsp) (hready : s.sample.rspReady = true) :
    stepWith t s = .next (deliver rsp s.sampled) := by
  rw [stepWith_stable t hrst hstable, engineStep_deliver t (s := s.sampled) hp hready]

end

end Sys2Proof.Machine

section
open Sys2Proof Sys2Proof.Machine

/-- Settles O1: LDKEY is accepted in IDLE, and the round keys are those of the key it loads. -/
theorem ldkeyLoadsKeyAndAnswersOk : Obligations.LdkeyLoadsKeyAndAnswersOk := by
  unfold Obligations.LdkeyLoadsKeyAndAnswersOk
  exact fun k s hp => ⟨exec_ldkey hp k, roundKey_key rfl⟩

/-- Settles O5: RSVD is accepted in IDLE, and raising its error touches neither key nor host. -/
theorem rsvdAnswersErrOp : Obligations.RsvdAnswersErrOp := by
  unfold Obligations.RsvdAnswersErrOp
  exact fun d s hp => exec_rsvd hp d

/-- Settles O9: the ROUND step, whose round key index is `RND`. -/
theorem roundStepWhenEncrypting : Obligations.RoundStepWhenEncrypting := by
  unfold Obligations.RoundStepWhenEncrypting
  exact fun t s l r n k hp hk hrst hstable => stepWith_round t hrst hstable (p := (l, r)) hp hk n.isLt

/-- Settles O10: the ROUND step, whose round key index is `15 - RND`. -/
theorem roundStepWhenDecrypting : Obligations.RoundStepWhenDecrypting := by
  unfold Obligations.RoundStepWhenDecrypting
  intro t s l r n i k hi hp hk hrst hstable
  have hindex : roundIndex .dec n.castSucc.val n.isLt = i := Fin.ext hi.symm
  rw [stepWith_round t hrst hstable (p := (l, r)) hp hk n.isLt, hindex]
  rfl

/-- Settles O11: the FINISH step, whose join depends on the direction. -/
theorem finishJoinsTheHalves : Obligations.FinishJoinsTheHalves := by
  unfold Obligations.FinishJoinsTheHalves
  intro t s dir l r hp hrst hstable
  rw [stepWith_finish t hrst hstable (p := (l, r)) hp]
  cases dir <;> rfl

/-- Settles O12: the DELIVER step. -/
theorem deliverHandsOverTheResponse : Obligations.DeliverHandsOverTheResponse := by
  unfold Obligations.DeliverHandsOverTheResponse
  exact fun t s rsp hp hrst hstable hready => stepWith_deliver t hrst hstable hp hready

end

/-! ### The steps of a run -/

namespace Sys2Proof.Machine

/-- The engine runs in direction `dir` with key `k`; `n` rounds are done and have left the halves `p`, and the host
does not disturb what is left of the run (44_engine.md R118). -/
structure Running (dir : Dir) (k : MasterKey) (p : HalfBlock × HalfBlock) (n : Fin 17) (s : State) : Prop where
  phase : s.phase = .run dir p.1 p.2 n
  key : s.key = some k
  host : undisturbed (17 - n.val) s.presented s.inputs = true

/-- An accepted ENC or DEC starts the run with the split operand. -/
theorem running_of_accept (t : Tables) {s : State} {w : CommandWord} {k : MasterKey} {dir : Dir} {b : Block}
    (hp : s.phase = .idle) (hk : s.key = some k) (hrst : s.sample.rst = false) (hstable : s.hostStable = true)
    (hcmd : s.sample.cmd = some w) (hdec : decode w = dataInstr dir b)
    (hhost : undisturbed 17 none s.inputs.tail = true) :
    ∃ u, stepWith t s = .next u ∧ Running dir k (splitBlock dir b) 0 u ∧ u.received = s.received
      ∧ u.inputs = s.inputs.tail := by
  refine ⟨startRun dir b s.sampled.commandTaken, ?_, ⟨rfl, hk, hhost⟩, rfl, rfl⟩
  rw [stepWith_accept t hrst hstable hp hcmd, hdec, exec_dataInstr (s := s.sampled.commandTaken) hp hk]

theorem Running.round (t : Tables) {dir : Dir} {k : MasterKey} {p : HalfBlock × HalfBlock} {n : Fin 17} {s : State}
    (h : Running dir k p n s) (hn : n.val < 16) :
    ∃ u, stepWith t s = .next u
      ∧ Running dir k (roundHalves t (ks k (roundIndex dir n.val hn)) dir p) ⟨n.val + 1, by omega⟩ u
      ∧ u.received = s.received ∧ u.inputs = s.inputs.tail := by
  have hleft : 17 - n.val = (17 - (n.val + 1)) + 1 := by omega
  obtain ⟨hrst, hstable, hhost⟩ := undisturbed_succ (hleft ▸ h.host)
  exact ⟨_, stepWith_round t hrst hstable h.phase h.key hn, ⟨rfl, h.key, hhost⟩, rfl, rfl⟩

theorem Running.finish (t : Tables) {dir : Dir} {k : MasterKey} {p : HalfBlock × HalfBlock} {s : State}
    (h : Running dir k p 16 s) : stepWith t s = .next (respond .ok (joinHalves dir p) s.sampled) := by
  obtain ⟨hrst, hstable, -⟩ := undisturbed_succ (n := 0) h.host
  exact stepWith_finish t hrst hstable h.phase

@[simp] theorem length_indexOrder (dir : Dir) : (indexOrder dir).length = 16 := by
  cases dir <;> rfl

/-- The ROUND step with `n` rounds done takes the `n`-th index of its direction (44_engine.md R110, R111). -/
theorem getElem_indexOrder (dir : Dir) {n : Nat} (hn : n < 16) :
    (indexOrder dir)[n]'(by simpa using hn) = roundIndex dir n hn := by
  have hall : ∀ i : Fin 16, (indexOrder dir)[i.val]'(by simp) = roundIndex dir i.val i.isLt := by
    cases dir <;> decide
  exact hall ⟨n, hn⟩

/-- One more round: the rounds over the first `j` indices from the `n`-th on, then the next index. -/
theorem rounds_take_succ (t : Tables) (k : MasterKey) (dir : Dir) {n j : Nat} (h : n + j < 16)
    (p : HalfBlock × HalfBlock) :
    rounds t k dir (((indexOrder dir).drop n).take (j + 1)) p
      = roundHalves t (ks k (roundIndex dir (n + j) h)) dir
          (rounds t k dir (((indexOrder dir).drop n).take j) p) := by
  have hj : j < ((indexOrder dir).drop n).length := by simp; omega
  rw [← List.take_append_getElem hj, List.getElem_drop, getElem_indexOrder dir h, rounds_append, rounds_cons,
    rounds_nil]

/-- After `j` more ROUND steps the halves are those after `j` more iterations of the cipher (44_engine.md R118). -/
theorem Running.runWith_rounds (t : Tables) {dir : Dir} {k : MasterKey} {p : HalfBlock × HalfBlock} {n : Fin 17}
    {s : State} (h : Running dir k p n s) {j : Nat} (hj : n.val + j < 17) :
    ∃ u, runWith t j s = .next u
      ∧ Running dir k (rounds t k dir (((indexOrder dir).drop n.val).take j) p) ⟨n.val + j, hj⟩ u
      ∧ u.received = s.received ∧ u.inputs = s.inputs.drop j := by
  induction j with
  | zero => exact ⟨s, rfl, by simpa using h, rfl, rfl⟩
  | succ j ih =>
    obtain ⟨u, hrun, hu, hreceived, hinputs⟩ := ih (by omega)
    have hlt : n.val + j < 16 := by omega
    obtain ⟨v, hstep, hv, hreceived', hinputs'⟩ := hu.round t hlt
    refine ⟨v, ?_, ?_, hreceived'.trans hreceived, ?_⟩
    · rw [runWith_add hrun, runWith_succ hstep, runWith_zero]
    · rw [rounds_take_succ t k dir hlt]
      exact hv
    · rw [hinputs', hinputs, List.tail_drop]

end Sys2Proof.Machine

section
open Sys2Proof Sys2Proof.Machine

/-- Settles O25: the ACCEPT step splits the operand, the ROUND steps are the iterations, and FINISH after all sixteen
of them joins the halves. -/
theorem stepsAgreeWithEncodeAndDecode : Obligations.StepsAgreeWithEncodeAndDecode := by
  unfold Obligations.StepsAgreeWithEncodeAndDecode
  intro t dir b k s w hp hk hrst hstable hcmd hdec hhost
  obtain ⟨v, haccept, hv, hreceived, hinputs⟩ := running_of_accept t hp hk hrst hstable hcmd hdec hhost
  refine ⟨fun j => ?rounds, ?finish⟩
  case rounds =>
    obtain ⟨u, hrun, hu, -⟩ := hv.runWith_rounds t (j := j.val) (by simp)
    refine ⟨u, by rw [runWith_succ haccept, hrun], hu.key, ?_⟩
    simpa using hu.phase
  case finish =>
    obtain ⟨u, hrun, hu, hreceived', hinputs'⟩ := hv.runWith_rounds t (j := 16) (by decide)
    have hall : ((indexOrder dir).drop 0).take 16 = indexOrder dir := List.take_of_length_le (by simp)
    have hfinish : stepWith t u = .next (respond .ok (cipher t dir k b) u.sampled) := by
      rw [cipher, ← hall]
      exact Running.finish t hu
    refine ⟨respond .ok (cipher t dir k b) u.sampled, ?_, hu.key, hreceived'.trans hreceived, ?_, ?_⟩
    · rw [runWith_succ haccept, runWith_add (a := 16) (b := 1) hrun, runWith_succ hfinish, runWith_zero]
    · rw [respond_inputs, sampled_inputs, hinputs', hinputs, List.tail_drop, List.drop_tail]
    · cases dir <;> rfl

end

/-!
PROOFS. The family 60_exceptions.md: a data command without a key (R131).
-/

namespace Sys2Proof.Machine

/-- ENC and DEC without a key raise `ERR_NOKEY` and start no run (60_exceptions.md R131). -/
theorem exec_dataInstr_noKey {s : State} (hp : s.phase = .idle) (hk : s.key = none) (dir : Dir) (b : Block) :
    exec (dataInstr dir b) s = .next (raiseError .errNoKey s) := by
  cases dir with
  | enc => rw [dataInstr, exec, execEnc, accepting_idle hp, dataCommand_noKey hk]
  | dec => rw [dataInstr, exec, execDec, accepting_idle hp, dataCommand_noKey hk]

end Sys2Proof.Machine

section
open Sys2Proof Sys2Proof.Machine

/-- Settles O4: in either direction the command raises its error, which sets the response and nothing else. -/
theorem dataCommandWithoutKeyAnswersErrNokey : Obligations.DataCommandWithoutKeyAnswersErrNokey := by
  unfold Obligations.DataCommandWithoutKeyAnswersErrNokey
  exact fun b s hp hk => ⟨exec_dataInstr_noKey hp hk .enc b, exec_dataInstr_noKey hp hk .dec b⟩

end

/-!
PROOFS. The family 70_reset_and_hazards.md: reset in any phase (R151).
-/

namespace Sys2Proof.Machine

/-- In IDLE no response waits (10_state.md R18). -/
theorem pending_idle {s : State} (h : s.phase = .idle) : s.pending = none := by
  simp [State.pending, h]

/-- While reset is asserted no command is accepted, in any phase (30_encoding.md R40). -/
theorem cmdReady_rst {s : State} (h : s.sample.rst = true) : s.cmdReady = false := by
  cases hp : s.phase with
  | idle => rw [cmdReady_idle hp, h, Bool.not_true]
  | run dir l r rnd => simp [State.cmdReady, hp]
  | done rsp => simp [State.cmdReady, hp]

/-- While reset is asserted no response is offered, in any phase (30_encoding.md R40, R47). -/
theorem rspValid_rst {s : State} (h : s.sample.rst = true) : s.rspValid = false := by
  cases hp : s.phase with
  | idle => exact rspValid_idle hp
  | run dir l r rnd => simp [State.rspValid, hp]
  | done rsp => simp [State.rspValid, hp, h]

/-- After RESET `KEYVALID` is 0, from any state (70_reset_and_hazards.md R151). -/
@[simp] theorem resetEngine_keyValid (s : State) : (resetEngine s).keyValid = false := rfl

end Sys2Proof.Machine

section
open Sys2Proof Sys2Proof.Machine

/-- Settles O14: the step is RESET on the sampled state, whatever the phase and the host, and with `rst = 1` both
handshake outputs are 0. -/
theorem resetForgetsKeyAndDropsTheCommand : Obligations.ResetForgetsKeyAndDropsTheCommand := by
  unfold Obligations.ResetForgetsKeyAndDropsTheCommand
  intro t s hrst
  exact ⟨resetEngine s.sampled, stepWith_reset t hrst,
    resetEngine_keyValid _, resetEngine_phase _, roundKey_noKey (resetEngine_key _), pending_idle (resetEngine_phase _),
    resetEngine_received _, resetEngine_inputs _, cmdReady_rst hrst, rspValid_rst hrst⟩

end

/-!
PROOFS. The family 'other': single commands and steps, the ports, the invariant of legal states, the independence of
control from data, runs of several steps, the rest of the cipher and of the bit permutations, words and text.
-/

/-! ### Words -/

namespace Sys2Proof.Machine

theorem operandOf_decode (w : CommandWord) : operandOf (decode w) = commandData w := by
  unfold decode
  split_ifs <;> rfl

theorem encode_decode (w : CommandWord) : encode (decode w) = w := by
  rw [encode, opcode_decode, operandOf_decode, commandOp_append_commandData]

/-- Every 66-bit word fits the command port (30_encoding.md R42). -/
theorem commandWord_toNat (w : CommandWord) : commandWord w.toNat = .ok w := by
  rw [commandWord, if_pos w.isLt, BitVec.ofNat_toNat, BitVec.setWidth_eq]

theorem decodeTableWord_toNat (n : Nat) (w : CommandWord) : decodeTableWord n w.toNat = some (decode w) := by
  rw [decodeTableWord, commandWord_toNat]

/-- A response word is its two fields, as a command word is. -/
theorem responseCode_append_responseData (w : ResponseWord) : responseCode w ++ responseData w = w :=
  commandOp_append_commandData w

theorem decodeResponse_encodeResponse (r : Response) : decodeResponse (encodeResponse r) = .ok r := by
  obtain ⟨status, data⟩ := r
  cases status <;> simp [decodeResponse, statusCode]

/-- All that the response decoder can answer: the response with the word's status code and data, or, for the code
`11`, its refusal (30_encoding.md R46). -/
theorem decodeResponse_cases (w : ResponseWord) :
    (∃ status, decodeResponse w = .ok ⟨status, responseData w⟩ ∧ responseCode w = statusCode status)
    ∨ (decodeResponse w = .error .reservedStatus ∧ responseCode w = 3) := by
  have hlast : ∀ c : BitVec 2, c ≠ 0b00 → c ≠ 0b01 → c ≠ 0b10 → c = 3 := by decide
  unfold decodeResponse
  split_ifs with hok hnoKey hop
  · exact .inl ⟨.ok, rfl, hok⟩
  · exact .inl ⟨.errNoKey, rfl, hnoKey⟩
  · exact .inl ⟨.errOp, rfl, hop⟩
  · exact .inr ⟨rfl, hlast _ hok hnoKey hop⟩

/-- Code `11` is the code of no status (30_encoding.md R46, U8). -/
theorem statusCode_ne_three (status : Status) : statusCode status ≠ 3 := by
  cases status <;> decide

end Sys2Proof.Machine

section
open Sys2Proof Sys2Proof.Machine

/-- Settles O46: a word is its opcode and its operand, the decoder reads both, and every word fits the port. -/
theorem decodeAndEncodeAgree : Obligations.DecodeAndEncodeAgree := by
  unfold Obligations.DecodeAndEncodeAgree
  refine ⟨decode_encode, encode_decode, fun i n => ?_⟩
  rw [decodeTableWord_toNat, decode_encode]

/-- Settles O48: each word is evaluated. -/
theorem writtenOutWordsDecode : Obligations.WrittenOutWordsDecode := by
  unfold Obligations.WrittenOutWordsDecode
  decide

/-- Settles O49: the decoder answers by the status code, which is `11` for no status. -/
theorem responseWordsReadBack : Obligations.ResponseWordsReadBack := by
  unfold Obligations.ResponseWordsReadBack
  refine ⟨decodeResponse_encodeResponse, fun w r h => ?_, fun w => ?_⟩
  · obtain ⟨status, hok, hcode⟩ | ⟨herror, -⟩ := decodeResponse_cases w
    · cases hok.symm.trans h
      rw [encodeResponse, ← hcode, responseCode_append_responseData]
    · cases herror.symm.trans h
  · change _ ↔ responseCode w = 3
    obtain ⟨status, hok, hcode⟩ | ⟨herror, hcode⟩ := decodeResponse_cases w
    · exact iff_of_false (by simp [hok]) (hcode ▸ statusCode_ne_three status)
    · exact iff_of_true herror hcode

end

/-! ### Text -/

namespace Sys2Proof.Machine

theorem hexDigit_injective : Function.Injective hexDigit := by
  have hall : ∀ a b : Nibble, hexDigit a = hexDigit b → a = b := by decide
  exact fun a b h => hall a b h

/-- The 16 digits show every nibble of the block, so they determine it. -/
theorem hexBlock_injective : Function.Injective hexBlock := by
  intro a b h
  have hplaces : ∀ k < 16, k ∈ [15, 14, 13, 12, 11, 10, 9, 8, 7, 6, 5, 4, 3, 2, 1, 0] := by decide
  have hnibble : ∀ k < 16, a.extractLsb' (4 * k) 4 = b.extractLsb' (4 * k) 4 := fun k hk =>
    hexDigit_injective (List.map_inj_left.1 h k (hplaces k hk))
  refine BitVec.eq_of_getLsbD_eq fun i hi => ?_
  have hbit := congrArg (BitVec.getLsbD · (i % 4)) (hnibble (i / 4) (by omega))
  simpa [Nat.mod_lt, Nat.div_add_mod] using hbit

theorem length_hexBlock (b : Block) : (hexBlock b).length = 16 := rfl

/-- The opcode read back from a mnemonic by its first letter. -/
def opcodeOfMnemonic : List Char → BitVec 2
  | 'L' :: _ => 0b00
  | 'E' :: _ => 0b01
  | 'D' :: _ => 0b10
  | _ => 0b11

theorem opcodeOfMnemonic_mnemonicText (i : Instr) : opcodeOfMnemonic (mnemonicText i) = opcode i := by
  cases i <;> rfl

/-- A command is its opcode and its operand. -/
theorem instr_eq_of_opcode_of_operandOf {i j : Instr} (hop : opcode i = opcode j)
    (hdata : operandOf i = operandOf j) : i = j := by
  rw [← decode_encode i, encode, hop, hdata, ← encode, decode_encode]

theorem commandText_injective : Function.Injective commandText := by
  intro i j h
  obtain ⟨hhead, hdigits⟩ := List.append_inj' h (by rw [length_hexBlock, length_hexBlock])
  have hmnemonic : mnemonicText i = mnemonicText j := List.append_cancel_right hhead
  refine instr_eq_of_opcode_of_operandOf ?_ (hexBlock_injective hdigits)
  rw [← opcodeOfMnemonic_mnemonicText, hmnemonic, opcodeOfMnemonic_mnemonicText]

/-- No mnemonic begins as `RESET` does (30_encoding.md R49). -/
theorem commandText_ne_actionText_reset (i : Instr) : commandText i ≠ actionText .reset := by
  cases i <;> simp [commandText, mnemonicText, actionText]

end Sys2Proof.Machine

section
open Sys2Proof Sys2Proof.Machine

/-- Settles O51: the mnemonic determines the opcode and the digits the operand, and `RESET` is no command's text. -/
theorem commandTextDeterminesTheAction : Obligations.CommandTextDeterminesTheAction := by
  unfold Obligations.CommandTextDeterminesTheAction
  intro a b h
  match a, b, h with
  | .command i, .command j, h => rw [commandText_injective h]
  | .command i, .reset, h => exact absurd h (commandText_ne_actionText_reset i)
  | .reset, .command j, h => exact absurd h.symm (commandText_ne_actionText_reset j)
  | .reset, .reset, _ => rfl

end

/-! ### Commands -/

namespace Sys2Proof.Machine

/-- In RUN and DONE a command is ignored (30_encoding.md R41). -/
theorem exec_busy (i : Instr) {s : State} (hp : s.phase ≠ .idle) : exec i s = .next s := by
  cases i with
  | ldkey k => rw [exec, execLdkey, accepting_busy hp]
  | enc b => rw [exec, execEnc, accepting_busy hp]
  | dec b => rw [exec, execDec, accepting_busy hp]
  | rsvd d => rw [exec, execRsvd, accepting_busy hp]

/-- Entry into an error and the return from it leave nothing but the received response (60_exceptions.md R136,
R137). -/
theorem deliver_raiseError {s : State} (hp : s.phase = .idle) (code : Status) (rsp : Response) :
    deliver rsp (raiseError code s) = { s with received := s.received ++ [rsp] } := by
  cases s
  cases hp
  rfl

/-- A waiting response is the one in DONE (10_state.md R18). -/
theorem pending_eq_some_iff {s : State} {rsp : Response} : s.pending = some rsp ↔ s.phase = .done rsp := by
  cases hp : s.phase <;> simp [State.pending, hp]

/-- The key after a command: the operand of LDKEY, otherwise the key before it (10_state.md R11). -/
theorem exec_key {i : Instr} {s u : State} (hp : s.phase = .idle) (h : exec i s = .next u) :
    (∃ k, i = .ldkey k ∧ u.key = some k) ∨ (u.key = s.key ∧ ∀ k, i ≠ .ldkey k) := by
  obtain ⟨k, hi, he⟩ | ⟨dir, b, k, hi, -, he⟩ | ⟨b, hi, -, he⟩ | ⟨d, hi, he⟩ := exec_cases i s hp
    <;> (rw [he] at h; cases h)
  · exact .inl ⟨k, hi, rfl⟩
  · exact .inr ⟨rfl, by obtain ⟨rfl, -⟩ | ⟨rfl, -⟩ := hi <;> simp⟩
  · exact .inr ⟨rfl, by obtain rfl | rfl := hi <;> simp⟩
  · exact .inr ⟨rfl, by simp [hi]⟩

/-- No command touches the host's side of the ports. -/
theorem exec_host {i : Instr} {s u : State} (h : exec i s = .next u) :
    u.inputs = s.inputs ∧ u.presented = s.presented ∧ u.received = s.received := by
  by_cases hp : s.phase = .idle
  · obtain ⟨k, -, he⟩ | ⟨dir, b, k, -, -, he⟩ | ⟨b, -, -, he⟩ | ⟨d, -, he⟩ := exec_cases i s hp
      <;> (rw [he] at h; cases h; exact ⟨rfl, rfl, rfl⟩)
  · rw [exec_busy i hp] at h
    cases h
    exact ⟨rfl, rfl, rfl⟩

/-- In IDLE every command answers a next state (44_engine.md R101). -/
theorem exists_exec_next (i : Instr) {s : State} (hp : s.phase = .idle) : ∃ u, exec i s = .next u := by
  obtain ⟨k, -, he⟩ | ⟨dir, b, k, -, -, he⟩ | ⟨b, -, -, he⟩ | ⟨d, -, he⟩ := exec_cases i s hp <;> exact ⟨_, he⟩

end Sys2Proof.Machine

section
open Sys2Proof Sys2Proof.Machine

/-- Settles O2: with a key ENC starts the run on the operand's halves. -/
theorem encWithKeyStartsTheRun : Obligations.EncWithKeyStartsTheRun := by
  unfold Obligations.EncWithKeyStartsTheRun
  exact fun b s k hp hk => exec_dataInstr hp hk .enc b

/-- Settles O3: with a key DEC starts the run on the operand's halves, swapped. -/
theorem decWithKeyStartsTheRunSwapped : Obligations.DecWithKeyStartsTheRunSwapped := by
  unfold Obligations.DecWithKeyStartsTheRunSwapped
  exact fun b s k hp hk => exec_dataInstr hp hk .dec b

/-- Settles O6: a command is accepted in IDLE only. -/
theorem commandsOutsideIdleAreIgnored : Obligations.CommandsOutsideIdleAreIgnored := by
  unfold Obligations.CommandsOutsideIdleAreIgnored
  exact fun i s hp => exec_busy i hp

/-- Settles O7: a command that leaves a response other than `OK` has raised an error, and DELIVER returns from it. -/
theorem errorsArePreciseAndNotSticky : Obligations.ErrorsArePreciseAndNotSticky := by
  unfold Obligations.ErrorsArePreciseAndNotSticky
  intro i s u rsp hp h hpending hstatus
  have hdone := pending_eq_some_iff.1 hpending
  obtain ⟨k, -, he⟩ | ⟨dir, b, k, -, -, he⟩ | ⟨b, -, -, he⟩ | ⟨d, -, he⟩ := exec_cases i s hp
    <;> (rw [he] at h; cases h; cases hdone)
  · exact absurd rfl hstatus
  · exact ⟨rfl, deliver_raiseError hp _ _⟩
  · exact ⟨rfl, deliver_raiseError hp _ _⟩

end

/-! ### Single steps and the ports -/

namespace Sys2Proof.Machine

theorem stepWith_idle (t : Tables) {s : State} (hrst : s.sample.rst = false) (hstable : s.hostStable = true)
    (hp : s.phase = .idle) (hcmd : s.sample.cmd = none) : stepWith t s = .next s.sampled := by
  rw [stepWith_stable t hrst hstable, engineStep_idle t (s := s.sampled) hp hcmd]

theorem stepWith_hold (t : Tables) {s : State} {rsp : Response} (hrst : s.sample.rst = false)
    (hstable : s.hostStable = true) (hp : s.phase = .done rsp) (hready : s.sample.rspReady = false) :
    stepWith t s = .next s.sampled := by
  rw [stepWith_stable t hrst hstable, engineStep_hold t (s := s.sampled) hp hready]

theorem cmdReady_iff (s : State) : s.cmdReady = true ↔ s.phase = .idle ∧ s.sample.rst = false := by
  cases hp : s.phase <;> simp [State.cmdReady, hp]

theorem rspValid_iff (s : State) :
    s.rspValid = true ↔ (∃ rsp, s.phase = .done rsp) ∧ s.sample.rst = false := by
  cases hp : s.phase <;> simp [State.rspValid, hp]

theorem rspBus_done {s : State} {rsp : Response} (hp : s.phase = .done rsp) (hrst : s.sample.rst = false) :
    s.rspBus = some (encodeResponse rsp) := by
  rw [State.rspBus, if_pos ((rspValid_iff s).2 ⟨⟨rsp, hp⟩, hrst⟩), pending_eq_some_iff.2 hp, Option.map_some]

theorem rspBus_of_not_rspValid {s : State} (h : s.rspValid = false) : s.rspBus = none := by
  simp [State.rspBus, h]

/-- An unstable host has presented a command that it no longer shows (70_reset_and_hazards.md R154 item 1). -/
theorem hostStable_eq_false_iff (s : State) :
    s.hostStable = false ↔ ∃ w, s.presented = some w ∧ s.sample.cmd ≠ some w := by
  rw [← Bool.not_eq_true, hostStable_iff]
  cases hpresented : s.presented <;> simp

/-- Every step that answers a next state uses up one sample. -/
theorem stepWith_inputs {t : Tables} {s u : State} (h : stepWith t s = .next u) : u.inputs = s.inputs.tail := by
  obtain ⟨-, rfl⟩ | ⟨-, -, ⟨-, -, rfl⟩ | ⟨w, -, -, hexec⟩ | ⟨dir, l, r, rnd, k, hrnd, -, -, rfl⟩
    | ⟨dir, l, r, rnd, -, -, rfl⟩ | ⟨rsp, -, -, rfl⟩ | ⟨rsp, -, -, rfl⟩⟩ := stepWith_cases h
  case inr.inr.inl =>
    obtain ⟨hinputs, -, -⟩ := exec_host hexec
    exact hinputs
  all_goals rfl

end Sys2Proof.Machine

section
open Sys2Proof Sys2Proof.Machine

/-- Settles O8: the ACCEPT step runs the decoded command on the sampled state. -/
theorem acceptStepRunsTheDecodedCommand : Obligations.AcceptStepRunsTheDecodedCommand := by
  unfold Obligations.AcceptStepRunsTheDecodedCommand
  intro s w i hp hrst hstable hcmd hdec
  rw [step_eq_stepWith, stepWith_accept _ hrst hstable hp hcmd, hdec]
  rfl

/-- Settles O13: the two steps that wait keep the phase, and with it the response and its word on the bus. -/
theorem idleAndDoneWaitForTheHost : Obligations.IdleAndDoneWaitForTheHost := by
  unfold Obligations.IdleAndDoneWaitForTheHost
  refine fun t s hrst hstable => ⟨stepWith_idle t hrst hstable, fun rsp hp hready => ?_⟩
  have hsampled : s.sampled.phase = .done rsp := hp
  refine ⟨stepWith_hold t hrst hstable hp hready, pending_eq_some_iff.2 hsampled, fun hrst' => ?_⟩
  rw [rspBus_done hsampled hrst', rspBus_done hp hrst]

/-- Settles O16: such a host is not stable, and without reset the step looks at that before the phase. -/
theorem unstableHostHasNoStep : Obligations.UnstableHostHasNoStep := by
  unfold Obligations.UnstableHostHasNoStep
  exact fun t s w hpresented hcmd hrst =>
    stepWith_unstable t hrst ((hostStable_eq_false_iff s).2 ⟨w, hpresented, hcmd⟩)

/-- Settles O17: the handshake outputs phase by phase, and the bus by `rsp_valid`. -/
theorem outputPortsFollowThePhase : Obligations.OutputPortsFollowThePhase := by
  unfold Obligations.OutputPortsFollowThePhase
  exact fun s => ⟨cmdReady_iff s, rspValid_iff s, fun _ => rspBus_done, rspBus_of_not_rspValid⟩

/-- Settles O19: of the kinds of step only RESET and an accepted LDKEY write the key. -/
theorem keyIsWrittenOnlyByLdkeyAndReset : Obligations.KeyIsWrittenOnlyByLdkeyAndReset := by
  unfold Obligations.KeyIsWrittenOnlyByLdkeyAndReset
  intro t s u h
  obtain ⟨hrst, rfl⟩ | ⟨hrst, -, hstep⟩ := stepWith_cases h
  · exact .inl ⟨hrst, rfl⟩
  obtain ⟨hp, hcmd, rfl⟩ | ⟨w, hp, hcmd, hexec⟩ | ⟨dir, l, r, rnd, k, hrnd, hp, -, rfl⟩
    | ⟨dir, l, r, rnd, hp, -, rfl⟩ | ⟨rsp, hp, -, rfl⟩ | ⟨rsp, hp, -, rfl⟩ := hstep
  case inr.inr.inl =>
    obtain ⟨k, hi, hk⟩ | ⟨hk, hi⟩ := exec_key (s := s.sampled.commandTaken) hp hexec
    · exact .inr (.inl ⟨hrst, hp, w, k, hcmd, hi, hk⟩)
    · refine .inr (.inr ⟨hrst, hk, fun w' k _ hcmd' => ?_⟩)
      cases hcmd.symm.trans hcmd'
      exact hi k
  all_goals exact .inr (.inr ⟨hrst, rfl, by simp [*]⟩)

/-- Settles O20: of the kinds of step only DELIVER appends to what the host has received. -/
theorem responsesAreReceivedOnlyWhenTaken : Obligations.ResponsesAreReceivedOnlyWhenTaken := by
  unfold Obligations.ResponsesAreReceivedOnlyWhenTaken
  intro t s u h
  simp only [rspValid_iff]
  obtain ⟨hrst, rfl⟩ | ⟨hrst, -, hstep⟩ := stepWith_cases h
  · exact .inr ⟨rfl, by simp [hrst]⟩
  obtain ⟨hp, -, rfl⟩ | ⟨w, hp, -, hexec⟩ | ⟨dir, l, r, rnd, k, hrnd, hp, -, rfl⟩
    | ⟨dir, l, r, rnd, hp, -, rfl⟩ | ⟨rsp, hp, hready, rfl⟩ | ⟨rsp, hp, hready, rfl⟩ := hstep
  · exact .inr ⟨rfl, by simp [hp]⟩
  · obtain ⟨-, -, hreceived⟩ := exec_host hexec
    exact .inr ⟨hreceived, by simp [hp]⟩
  · exact .inr ⟨rfl, by simp [hp]⟩
  · exact .inr ⟨rfl, by simp [hp]⟩
  · exact .inl ⟨rsp, hp, hrst, hready, rfl⟩
  · exact .inr ⟨rfl, by simp [hready]⟩

end

/-! ### The invariant of legal states -/

namespace Sys2Proof.Machine

theorem legal_ok (data : Block) : Response.legal ⟨.ok, data⟩ = true := rfl

/-- An error's data is 0 (30_encoding.md R46). -/
theorem legal_zero (status : Status) : Response.legal ⟨status, 0⟩ = true := by
  cases status <;> rfl

section
variable {s : State} (hreceived : ∀ r ∈ s.received, Response.legal r = true)
include hreceived

theorem inv_idle (hp : s.phase = .idle) : Inv s :=
  ⟨by simp [State.runHasKey, hp], by simp [pending_idle hp], hreceived⟩

theorem inv_run {dir : Dir} {l r : HalfBlock} {rnd : Fin 17} {k : MasterKey} (hp : s.phase = .run dir l r rnd)
    (hk : s.key = some k) : Inv s :=
  ⟨by simp [State.runHasKey, hp, State.keyValid, hk], by simp [State.pending, hp], hreceived⟩

theorem inv_done {rsp : Response} (hp : s.phase = .done rsp) (hlegal : Response.legal rsp = true) : Inv s :=
  ⟨by simp [State.runHasKey, hp], by simp [State.pending, hp, hlegal], hreceived⟩

end

/-- RUN has a key in a legal state (10_state.md R26 (a)). -/
theorem exists_key_of_inv {s : State} {dir : Dir} {l r : HalfBlock} {rnd : Fin 17} (hinv : Inv s)
    (hp : s.phase = .run dir l r rnd) : ∃ k, s.key = some k := by
  obtain ⟨hkey, -, -⟩ := hinv
  simp only [State.runHasKey, hp] at hkey
  exact Option.isSome_iff_exists.1 hkey

/-- Every response that waits in a legal state may be given (10_state.md R26 (c)). -/
theorem legal_of_inv {s : State} {rsp : Response} (hinv : Inv s) (hp : s.phase = .done rsp) :
    Response.legal rsp = true := by
  obtain ⟨-, hpending, -⟩ := hinv
  exact hpending rsp (pending_eq_some_iff.2 hp)

/-- The invariant does not look at what the host drives. -/
theorem inv_sampled {s : State} (hinv : Inv s) : Inv s.sampled := hinv

theorem exec_keeps_inv {i : Instr} {s u : State} (hp : s.phase = .idle)
    (hreceived : ∀ r ∈ s.received, Response.legal r = true) (h : exec i s = .next u) : Inv u := by
  obtain ⟨k, -, he⟩ | ⟨dir, b, k, -, hk, he⟩ | ⟨b, -, -, he⟩ | ⟨d, -, he⟩ := exec_cases i s hp
    <;> (rw [he] at h; cases h)
  · exact inv_done hreceived rfl (legal_zero _)
  · exact inv_run hreceived rfl hk
  · exact inv_done hreceived rfl (legal_zero _)
  · exact inv_done hreceived rfl (legal_zero _)

theorem stepWith_keeps_inv {t : Tables} {s u : State} (hinv : Inv s) (h : stepWith t s = .next u) : Inv u := by
  have ⟨_, _, hreceived⟩ := hinv
  obtain ⟨-, rfl⟩ | ⟨-, -, hstep⟩ := stepWith_cases h
  · exact inv_idle hreceived rfl
  obtain ⟨-, -, rfl⟩ | ⟨w, hp, -, hexec⟩ | ⟨dir, l, r, rnd, k, hrnd, -, hk, rfl⟩ | ⟨dir, l, r, rnd, -, -, rfl⟩
    | ⟨rsp, hp, -, rfl⟩ | ⟨rsp, -, -, rfl⟩ := hstep
  · exact inv_sampled hinv
  · exact exec_keeps_inv (s := s.sampled.commandTaken) hp hreceived hexec
  · exact inv_run hreceived rfl hk
  · exact inv_done hreceived rfl (legal_ok _)
  · refine inv_idle (fun r hr => ?_) rfl
    obtain hr | hr := List.mem_append.1 hr
    · exact hreceived r hr
    · rw [List.mem_singleton.1 hr]
      exact legal_of_inv hinv hp
  · exact inv_sampled hinv

/-- In a legal state every step without reset and with a stable host answers a next state: RUN has the key that
ROUND needs. -/
theorem exists_stepWith_next (t : Tables) {s : State} (hinv : Inv s) (hrst : s.sample.rst = false)
    (hstable : s.hostStable = true) : ∃ u, stepWith t s = .next u := by
  cases hp : s.phase with
  | idle =>
    cases hcmd : s.sample.cmd with
    | none => exact ⟨_, stepWith_idle t hrst hstable hp hcmd⟩
    | some w =>
      rw [stepWith_accept t hrst hstable hp hcmd]
      exact exists_exec_next _ hp
  | run dir l r rnd =>
    by_cases hrnd : rnd.val < 16
    · obtain ⟨k, hk⟩ := exists_key_of_inv hinv hp
      exact ⟨_, stepWith_round t hrst hstable (p := (l, r)) hp hk hrnd⟩
    · have hlast : rnd = 16 := Fin.ext (by have := rnd.isLt; omega)
      exact ⟨_, stepWith_finish t hrst hstable (p := (l, r)) (hlast ▸ hp)⟩
  | done rsp =>
    cases hready : s.sample.rspReady with
    | true => exact ⟨_, stepWith_deliver t hrst hstable hp hready⟩
    | false => exact ⟨_, stepWith_hold t hrst hstable hp hready⟩

end Sys2Proof.Machine

section
open Sys2Proof Sys2Proof.Machine

/-- Settles O21: a run starts with a key that only RESET takes away, and every new response is `OK` or an error with
data 0. -/
theorem stepKeepsTheInvariant : Obligations.StepKeepsTheInvariant := by
  unfold Obligations.StepKeepsTheInvariant
  exact fun s u hinv h => stepWith_keeps_inv hinv h

/-- Settles O22: at reset the phase is IDLE and nothing is received. -/
theorem resetMeetsTheInvariant : Obligations.ResetMeetsTheInvariant := by
  unfold Obligations.ResetMeetsTheInvariant
  exact inv_idle (by simp [State.reset]) rfl

/-- Settles O23: RESET always answers, a stable host's step answers by the invariant, and an unstable host is
refused. -/
theorem legalStatesNeverGetStuck : Obligations.LegalStatesNeverGetStuck := by
  unfold Obligations.LegalStatesNeverGetStuck
  intro s hinv
  cases hrst : s.sample.rst with
  | true => exact .inl ⟨_, stepWith_reset Config.tables hrst⟩
  | false =>
    cases hstable : s.hostStable with
    | true => exact .inl (exists_stepWith_next Config.tables hinv hrst hstable)
    | false =>
      exact .inr ⟨stepWith_unstable Config.tables hrst hstable, rfl, (hostStable_eq_false_iff s).1 hstable⟩

end

/-! ### Control does not depend on data -/

namespace Sys2Proof.Machine

/-- What is left of a state when the values of keys, operands, halves and response data are left out, and with them
the responses already taken (44_engine.md R119). -/
@[ext] structure Control where
  shape : PhaseShape
  keyValid : Bool
  presented : Option (BitVec 2)
  /-- The host's samples: `rst`, the opcode of the command shown, `rsp_ready`. -/
  inputs : List (Bool × Option (BitVec 2) × Bool)

/-- A sample without the operand of its command. -/
def PortSample.control (d : PortSample) : Bool × Option (BitVec 2) × Bool :=
  (d.rst, d.cmd.map commandOp, d.rspReady)

def State.control (s : State) : Control where
  shape := s.phase.shape
  keyValid := s.keyValid
  presented := s.presented.map commandOp
  inputs := s.inputs.map PortSample.control

theorem sameControl_iff (s u : State) : SameControl s u ↔ s.control = u.control :=
  (Control.ext_iff (x := s.control) (y := u.control)).symm

/-- The next sample, read off the control alone (log 2 where the samples have ended). -/
def Control.sample (c : Control) : Bool × Option (BitVec 2) × Bool :=
  match c.inputs with
  | d :: _ => d
  | [] => (false, c.presented, true)

/-- The control once the step has sampled the ports. -/
def Control.sampled (c : Control) : Control :=
  { c with inputs := c.inputs.tail, presented := c.sample.2.1 }

/-- ACCEPT by the opcode alone (44_engine.md R102 to R105). -/
def Control.accept (op : BitVec 2) (c : Control) : Control :=
  { c with
    keyValid := c.keyValid || op == 0b00
    presented := none
    shape :=
      if op = 0b00 then .done .ok
      else if op = 0b11 then .done .errOp
      else if c.keyValid then .run (if op = 0b01 then .enc else .dec) 0
      else .done .errNoKey }

/-- What a step that answers does to the control, by the control alone (44_engine.md R119). -/
def Control.next (c : Control) : Control :=
  if c.sample.1 then { c.sampled with keyValid := false, shape := .idle }
  else
    match c.shape with
    | .idle =>
      match c.sample.2.1 with
      | none => c.sampled
      | some op => c.sampled.accept op
    | .run dir rnd =>
      if h : rnd.val < 16 then { c.sampled with shape := .run dir ⟨rnd.val + 1, by omega⟩ }
      else { c.sampled with shape := .done .ok }
    | .done _ => if c.sample.2.2 then { c.sampled with shape := .idle } else c.sampled

theorem control_sample (s : State) : s.control.sample = s.sample.control := by
  cases hi : s.inputs with
  | nil => simp [Control.sample, State.control, hi, sample_nil s hi, PortSample.control]
  | cons d ds => simp [Control.sample, State.control, hi, sample_cons s d ds hi]

theorem control_sampled (s : State) : s.sampled.control = s.control.sampled := by
  ext1
  case presented => exact congrArg (·.2.1) (control_sample s).symm
  case inputs => exact List.map_tail
  all_goals rfl

/-- An accepted command changes the control as its opcode says. -/
theorem control_exec {i : Instr} {s u : State} (hp : s.phase = .idle) (h : exec i s.commandTaken = .next u) :
    u.control = s.control.accept (opcode i) := by
  obtain ⟨k, rfl, he⟩ | ⟨dir, b, k, hi, hk, he⟩ | ⟨b, hi, hk, he⟩ | ⟨d, rfl, he⟩ :=
    exec_cases i s.commandTaken hp <;> (rw [he] at h; cases h)
  · simp [Control.accept, opcode, State.control, Phase.shape, State.keyValid]
  · rw [commandTaken_key] at hk
    obtain ⟨rfl, rfl⟩ | ⟨rfl, rfl⟩ := hi <;>
      simp [Control.accept, opcode, State.control, Phase.shape, State.keyValid, hk]
  · rw [commandTaken_key] at hk
    obtain rfl | rfl := hi <;> simp [Control.accept, opcode, State.control, Phase.shape, State.keyValid, hk]
  · simp [Control.accept, opcode, State.control, Phase.shape, State.keyValid]

/-- The diagram commutes: the control after a step is the next control. -/
theorem control_stepWith {t : Tables} {s u : State} (h : stepWith t s = .next u) : u.control = s.control.next := by
  have hshape : s.control.shape = s.phase.shape := rfl
  rw [Control.next, control_sample, ← control_sampled, hshape, PortSample.control]
  obtain ⟨hrst, rfl⟩ | ⟨hrst, -, hstep⟩ := stepWith_cases h
  · simp only [hrst]
    rfl
  obtain ⟨hp, hcmd, rfl⟩ | ⟨w, hp, hcmd, hexec⟩ | ⟨dir, l, r, rnd, k, hrnd, hp, -, rfl⟩
    | ⟨dir, l, r, rnd, hp, hrnd, rfl⟩ | ⟨rsp, hp, hready, rfl⟩ | ⟨rsp, hp, hready, rfl⟩ := hstep
    <;> simp only [hrst, hp, Phase.shape, Bool.false_eq_true, if_false]
  · rw [hcmd, Option.map_none]
  · rw [hcmd, Option.map_some, control_exec (s := s.sampled) hp hexec, opcode_decode]
  · rw [dif_pos hrnd]
    rfl
  · rw [dif_neg (by omega)]
    rfl
  · rw [if_pos hready]
    rfl
  · rw [if_neg (by simp [hready])]

end Sys2Proof.Machine

section
open Sys2Proof Sys2Proof.Machine

/-- Settles O28: the control after a step is a function of the control before it. -/
theorem stepSequenceDoesNotDependOnData : Obligations.StepSequenceDoesNotDependOnData := by
  unfold Obligations.StepSequenceDoesNotDependOnData
  intro t s u s' u' hsame hs hu
  rw [sameControl_iff] at hsame ⊢
  rw [control_stepWith hs, control_stepWith hu, hsame]

end

/-! ### Runs of several steps -/

namespace Sys2Proof.Machine

/-- From RUN, the ROUND steps that are left and the FINISH load an `OK` response. -/
theorem Running.runWith_finish (t : Tables) {dir : Dir} {k : MasterKey} {p : HalfBlock × HalfBlock} {n : Fin 17}
    {s : State} (h : Running dir k p n s) :
    ∃ u b, runWith t (17 - n.val) s = .next u ∧ u.phase = .done ⟨.ok, b⟩ ∧ u.key = some k
      ∧ u.received = s.received := by
  obtain ⟨u, hrun, hu, hreceived, -⟩ := h.runWith_rounds t (j := 16 - n.val) (by omega)
  have hlast : (⟨n.val + (16 - n.val), by omega⟩ : Fin 17) = 16 := Fin.ext (by simp; omega)
  have hleft : 17 - n.val = (16 - n.val) + 1 := by omega
  rw [hlast] at hu
  rw [hleft]
  exact ⟨_, _, (runWith_add hrun).trans (runWith_succ (hu.finish t)), rfl, hu.key, hreceived⟩

/-- Where the host will drive neither reset nor a command, the next sample has neither. -/
theorem RunEnded.sample_quiet {s : State} (h : RunEnded s) : s.sample.rst = false ∧ s.sample.cmd = none := by
  obtain ⟨-, hpresented, hinputs⟩ := h
  cases hi : s.inputs with
  | nil => rw [sample_nil s hi]; exact ⟨rfl, hpresented⟩
  | cons d ds => rw [sample_cons s d ds hi]; exact hinputs d (by rw [hi]; exact List.mem_cons_self)

theorem RunEnded.sampled {s : State} (h : RunEnded s) : RunEnded s.sampled :=
  have ⟨_, hcmd⟩ := h.sample_quiet
  have ⟨hp, _, hinputs⟩ := h
  ⟨hp, hcmd, fun d hd => hinputs d (List.mem_of_mem_tail hd)⟩

end Sys2Proof.Machine

section
open Sys2Proof Sys2Proof.Machine

/-- Settles O24: the state is `Running`, and an undisturbed run does its remaining rounds and finishes. -/
theorem runIsLeftAfterTheRemainingRounds : Obligations.RunIsLeftAfterTheRemainingRounds := by
  unfold Obligations.RunIsLeftAfterTheRemainingRounds
  intro t s dir l r n hp hvalid hhost
  obtain ⟨k, hk⟩ := Option.isSome_iff_exists.1 hvalid
  have hs : Running dir k (l, r) n s := ⟨hp, hk, hhost⟩
  rw [hk]
  refine ⟨fun j hj => ?_, hs.runWith_finish t⟩
  obtain ⟨u, hrun, hu, hreceived, -⟩ := hs.runWith_rounds t (j := j) (by omega)
  exact ⟨u, _, _, _, hrun, rfl, hu.phase, hu.key, hreceived⟩

/-- Settles O26: either machine answers with the cipher of the one key and operand (O25). -/
theorem responseDependsOnKeyAndOperandOnly : Obligations.ResponseDependsOnKeyAndOperandOnly := by
  unfold Obligations.ResponseDependsOnKeyAndOperandOnly
  intro t s u w k hsp hup hsk huk hsrst hurst hsstable hustable hscmd hucmd ⟨dir, b, hdec⟩ hshost huhost
  obtain ⟨-, s', hsrun, -, -, -, hs'⟩ :=
    stepsAgreeWithEncodeAndDecode t dir b k s w hsp hsk hsrst hsstable hscmd hdec hshost
  obtain ⟨-, u', hurun, -, -, -, hu'⟩ :=
    stepsAgreeWithEncodeAndDecode t dir b k u w hup huk hurst hustable hucmd hdec huhost
  exact ⟨s', u', _, hsrun, hurun, hs', hu'⟩

/-- Settles O29: IDLE waits, and what is left of the host's samples is as quiet as before. -/
theorem endedRunsStayEnded : Obligations.EndedRunsStayEnded := by
  unfold Obligations.EndedRunsStayEnded
  intro s h
  obtain ⟨hrst, hcmd⟩ := h.sample_quiet
  have ⟨hp, hpresented, _⟩ := h
  exact ⟨s.sampled, stepWith_idle Config.tables hrst (hostStable_of_none s hpresented) hp hcmd, h.sampled, rfl, rfl⟩

end

/-! ### Commands are answered in order -/

namespace Sys2Proof.Machine

/-- The response that the command in progress will still give: in RUN the result of the rounds that are left, in
DONE the waiting response. -/
def State.owed (t : Tables) (s : State) : List Response :=
  match s.phase with
  | .idle => []
  | .run dir l r rnd => [⟨.ok, joinHalves dir (rounds t (s.key.getD 0) dir ((indexOrder dir).drop rnd.val) (l, r))⟩]
  | .done rsp => [rsp]

/-- The responses received and the one still owed: all answers to the commands accepted so far. -/
def State.account (t : Tables) (s : State) : List Response := s.received ++ s.owed t

theorem account_idle (t : Tables) {s : State} (hp : s.phase = .idle) : s.account t = s.received := by
  simp [State.account, State.owed, hp]

theorem account_done (t : Tables) {s : State} {rsp : Response} (hp : s.phase = .done rsp) :
    s.account t = s.received ++ [rsp] := by
  simp [State.account, State.owed, hp]

theorem account_run (t : Tables) {s : State} {dir : Dir} {l r : HalfBlock} {rnd : Fin 17}
    (hp : s.phase = .run dir l r rnd) : s.account t = s.received
      ++ [⟨.ok, joinHalves dir (rounds t (s.key.getD 0) dir ((indexOrder dir).drop rnd.val) (l, r))⟩] := by
  simp [State.account, State.owed, hp]

theorem account_sampled (t : Tables) (s : State) : s.sampled.account t = s.account t := rfl

/-- An accepted ENC or DEC with a key will be answered with the cipher of its operand (44_engine.md R118). -/
theorem account_startRun (t : Tables) {s : State} {k : MasterKey} (hk : s.key = some k) (dir : Dir) (b : Block) :
    (startRun dir b s).account t = s.received ++ [⟨.ok, cipher t dir k b⟩] := by
  rw [account_run t (startRun_phase dir b s), startRun_key, hk]
  rfl

/-- A ROUND step does the first of the rounds that are left. -/
theorem account_round (t : Tables) {s : State} {dir : Dir} {l r : HalfBlock} {rnd : Fin 17} {k : MasterKey}
    (hrnd : rnd.val < 16) (hp : s.phase = .run dir l r rnd) (hk : s.key = some k) :
    (setRun dir (roundHalves t (ks k (roundIndex dir rnd.val hrnd)) dir (l, r)) ⟨rnd.val + 1, by omega⟩ s).account t
      = s.account t := by
  have hdrop : (indexOrder dir).drop rnd.val
      = roundIndex dir rnd.val hrnd :: (indexOrder dir).drop (rnd.val + 1) := by
    rw [List.drop_eq_getElem_cons (by simpa using hrnd), getElem_indexOrder dir hrnd]
  rw [account_run t hp, hdrop, rounds_cons, hk, account_run t (setRun_phase _ _ _ _), setRun_key, hk]
  rfl

/-- Before FINISH no round is left. -/
theorem account_finish (t : Tables) {s : State} {dir : Dir} {l r : HalfBlock} {rnd : Fin 17} (hrnd : rnd.val = 16)
    (hp : s.phase = .run dir l r rnd) : (respond .ok (joinHalves dir (l, r)) s).account t = s.account t := by
  rw [account_run t hp, hrnd, List.drop_of_length_le (by simp), rounds_nil]
  rfl

/-- A command adds its answer to the account and leaves the key that the answer names (44_engine.md R102 to R105). -/
theorem account_exec (t : Tables) {i : Instr} {s u : State} (hp : s.phase = .idle) (h : exec i s = .next u) :
    u.account t = s.account t ++ (answers t s.key [i]).1 ∧ u.key = (answers t s.key [i]).2 := by
  rw [account_idle t hp]
  obtain ⟨k, rfl, he⟩ | ⟨dir, b, k, hi, hk, he⟩ | ⟨b, hi, hk, he⟩ | ⟨d, rfl, he⟩ := exec_cases i s hp
    <;> (rw [he] at h; cases h)
  · exact ⟨rfl, rfl⟩
  · rw [account_startRun t hk, startRun_key, hk]
    obtain ⟨rfl, rfl⟩ | ⟨rfl, rfl⟩ := hi <;> exact ⟨rfl, rfl⟩
  · rw [raiseError_key, hk]
    obtain rfl | rfl := hi <;> exact ⟨rfl, rfl⟩
  · exact ⟨rfl, rfl⟩

theorem acceptsNow_idle {s : State} (hp : s.phase = .idle) (hrst : s.sample.rst = false)
    (hstable : s.hostStable = true) : s.acceptsNow = s.sample.cmd.map decode := by
  rw [State.acceptsNow, (cmdReady_iff s).2 ⟨hp, hrst⟩, hstable, Bool.and_self, if_pos rfl]

theorem acceptsNow_busy {s : State} (hp : s.phase ≠ .idle) : s.acceptsNow = none := by
  have hready : s.cmdReady = false := by
    rw [← Bool.not_eq_true, cmdReady_iff]
    exact fun h => hp h.1
  simp [State.acceptsNow, hready]

/-- Where no command is accepted, an unchanged account is what the answers to the accepted commands make of it. -/
theorem account_of_acceptsNow_none {t : Tables} {s u : State} (haccepts : s.acceptsNow = none)
    (haccount : u.account t = s.account t) (hkey : u.key = s.key) :
    u.account t = s.account t ++ (answers t s.key s.acceptsNow.toList).1
    ∧ u.key = (answers t s.key s.acceptsNow.toList).2 := by
  simp [haccepts, haccount, hkey, answers]

/-- Each step without reset adds the answer to the command it accepts, if any, and nothing else. -/
theorem account_stepWith {t : Tables} {s u : State} (hrst : s.sample.rst = false) (h : stepWith t s = .next u) :
    u.account t = s.account t ++ (answers t s.key s.acceptsNow.toList).1
    ∧ u.key = (answers t s.key s.acceptsNow.toList).2 := by
  obtain ⟨hrst', -⟩ | ⟨-, hstable, hstep⟩ := stepWith_cases h
  · exact absurd hrst' (by simp [hrst])
  obtain ⟨hp, hcmd, rfl⟩ | ⟨w, hp, hcmd, hexec⟩ | ⟨dir, l, r, rnd, k, hrnd, hp, hk, rfl⟩
    | ⟨dir, l, r, rnd, hp, hrnd, rfl⟩ | ⟨rsp, hp, -, rfl⟩ | ⟨rsp, hp, -, rfl⟩ := hstep
  · exact account_of_acceptsNow_none (by rw [acceptsNow_idle hp hrst hstable, hcmd, Option.map_none]) rfl rfl
  · rw [acceptsNow_idle hp hrst hstable, hcmd]
    exact account_exec t (s := s.sampled.commandTaken) hp hexec
  · exact account_of_acceptsNow_none (acceptsNow_busy (by simp [hp])) (account_round t (s := s.sampled) hrnd hp hk) rfl
  · exact account_of_acceptsNow_none (acceptsNow_busy (by simp [hp])) (account_finish t (s := s.sampled) hrnd hp) rfl
  · refine account_of_acceptsNow_none (acceptsNow_busy (by simp [hp])) ?_ rfl
    rw [account_idle t (deliver_phase _ _), account_done t hp]
    rfl
  · exact account_of_acceptsNow_none (acceptsNow_busy (by simp [hp])) rfl rfl

/-- The answers to a list in two parts, the second under the key that the first leaves. -/
theorem answers_append (t : Tables) (key : Option MasterKey) (a b : List Instr) :
    answers t key (a ++ b)
      = ((answers t key a).1 ++ (answers t (answers t key a).2 b).1, (answers t (answers t key a).2 b).2) := by
  induction a generalizing key with
  | nil => rfl
  | cons i a ih => simp only [List.cons_append, answers, ih]

theorem acceptedIn_succ {t : Tables} {s s' : State} (n : Nat) (h : stepWith t s = .next s') :
    acceptedIn t (n + 1) s = s.acceptsNow.toList ++ acceptedIn t n s' := by
  simp [acceptedIn, h]

/-- A host whose next samples assert no reset asserts none at the next step. -/
theorem sample_rst_of_take {s : State} {n : Nat} (h : ∀ d ∈ s.inputs.take (n + 1), d.rst = false) :
    s.sample.rst = false := by
  cases hi : s.inputs with
  | nil => rw [sample_nil s hi]
  | cons d ds => rw [sample_cons s d ds hi]; exact h d (by simp [hi])

/-- Over a run without reset the account grows by the answers to the commands accepted in it. -/
theorem account_runWith {t : Tables} {n : Nat} {s u : State} (hrun : runWith t n s = .next u)
    (hrst : ∀ d ∈ s.inputs.take n, d.rst = false) :
    u.account t = s.account t ++ (answers t s.key (acceptedIn t n s)).1
    ∧ u.key = (answers t s.key (acceptedIn t n s)).2 := by
  induction n generalizing s with
  | zero =>
    cases hrun
    exact ⟨(List.append_nil _).symm, rfl⟩
  | succ n ih =>
    obtain ⟨s', hstep, hrest⟩ := stepWith_of_runWith hrun
    obtain ⟨haccount, hkey⟩ := account_stepWith (sample_rst_of_take hrst) hstep
    have hrst' : ∀ d ∈ s'.inputs.take n, d.rst = false := by
      have htail : s.inputs.tail.take n = (s.inputs.take (n + 1)).tail := by
        rw [List.tail_take_eq_take_tail, Nat.add_sub_cancel]
      rw [stepWith_inputs hstep, htail]
      exact fun d hd => hrst d (List.mem_of_mem_tail hd)
    obtain ⟨haccount', hkey'⟩ := ih hrest hrst'
    rw [acceptedIn_succ n hstep, answers_append, haccount', hkey', haccount, hkey, List.append_assoc]
    exact ⟨rfl, rfl⟩

end Sys2Proof.Machine

section
open Sys2Proof Sys2Proof.Machine

/-- Settles O27: in IDLE nothing is owed, so the account is what the host has received. -/
theorem commandsAreAnsweredInOrder : Obligations.CommandsAreAnsweredInOrder := by
  unfold Obligations.CommandsAreAnsweredInOrder
  intro t n s u hs hrun hu hrst
  rw [← account_idle t hs, ← account_idle t hu]
  exact account_runWith hrun hrst

end

/-! ### The cipher and the permutation -/

namespace Sys2Proof.Machine

/-- Four rounds with a constant round function cancel: each half is changed by the constant twice
(95_test_vectors.md section 5.1). -/
theorem rounds_four_of_fround_const {t : Tables} {c : HalfBlock} (h : ∀ x kr, fround t x kr = c) (k : MasterKey)
    (dir : Dir) (i₁ i₂ i₃ i₄ : Fin 16) (order : List (Fin 16)) (p : HalfBlock × HalfBlock) :
    rounds t k dir (i₁ :: i₂ :: i₃ :: i₄ :: order) p = rounds t k dir order p := by
  cases dir <;> simp [roundHalves, h]

theorem rounds_indexOrder_of_fround_const {t : Tables} {c : HalfBlock} (h : ∀ x kr, fround t x kr = c)
    (k : MasterKey) (dir : Dir) (p : HalfBlock × HalfBlock) : rounds t k dir (indexOrder dir) p = p := by
  cases dir <;> simp [indexOrder, roundOrder, rounds_four_of_fround_const h]

theorem cipher_of_fround_const {t : Tables} {c : HalfBlock} (h : ∀ x kr, fround t x kr = c) (k : MasterKey)
    (dir : Dir) (b : Block) : cipher t dir k b = lowHalf b ++ highHalf b := by
  rw [cipher, rounds_indexOrder_of_fround_const h]
  cases dir <;> rfl

/-- The selection of PERMUTE, counted from the top bit (10_state.md R21). -/
def ptabSelect (t : Tables) (i : Fin 32) : Fin 32 := t.ptab[i]

theorem ptabEntry_eq (t : Tables) (i : Fin 32) : ptabEntry t i = (ptabSelect t i).val + 1 := rfl

theorem getLsbD_permute (t : Tables) (x : HalfBlock) (i : Fin 32) :
    (permute t x).getLsbD i.val = x.getLsbD (ptabSelect t i).rev.val := by
  rw [permute, getLsbD_bitsel, ptabEntry_eq, Fin.val_rev]

/-- PERMUTE loses no bit exactly when every bit is selected. -/
theorem permute_injective_iff (t : Tables) :
    Function.Injective (permute t) ↔ Function.Surjective (ptabSelect t) := by
  refine ⟨fun hinj v => ?_, fun hsurj x y h => ?_⟩
  · by_contra hmiss
    have hzero : permute t (BitVec.twoPow 32 v.rev.val) = permute t 0 := by
      refine BitVec.eq_of_getLsbD_eq fun i hi => ?_
      have hne : v.rev.val ≠ (ptabSelect t ⟨i, hi⟩).rev.val := fun heq =>
        hmiss ⟨⟨i, hi⟩, (Fin.rev_injective (Fin.ext heq)).symm⟩
      rw [getLsbD_permute t _ ⟨i, hi⟩, getLsbD_permute t _ ⟨i, hi⟩]
      simp only [BitVec.getLsbD_twoPow, hne, decide_false, Bool.and_false, BitVec.getLsbD_zero, BitVec.ofNat_eq_ofNat]
    have hbit := congrArg (BitVec.getLsbD · v.rev.val) (hinj hzero)
    simp only [BitVec.getLsbD_twoPow, v.rev.isLt, decide_true, Bool.and_true, BitVec.getLsbD_zero,
      BitVec.ofNat_eq_ofNat, Bool.true_eq_false] at hbit
  · refine BitVec.eq_of_getLsbD_eq fun j hj => ?_
    obtain ⟨i, hi⟩ := hsurj (Fin.rev ⟨j, hj⟩)
    have hbit := congrArg (BitVec.getLsbD · i.val) h
    simpa only [getLsbD_permute, hi, Fin.rev_rev] using hbit

theorem permute_bijective_iff (t : Tables) :
    Function.Bijective (permute t) ↔ Function.Bijective (ptabSelect t) := by
  rw [← Finite.injective_iff_bijective, ← Finite.surjective_iff_bijective, permute_injective_iff]

/-- The entries 1..32 are the selections 0..31, each one more. -/
theorem ptabSelect_bijective_iff (t : Tables) :
    Function.Bijective (ptabSelect t) ↔ ∀ v, 1 ≤ v → v ≤ 32 → ∃! i : Fin 32, ptabEntry t i = v := by
  rw [Function.bijective_iff_existsUnique]
  refine ⟨fun h v hlo hhi => ?_, fun h b => ?_⟩
  · refine (existsUnique_congr fun i => ?_).1 (h ⟨v - 1, by omega⟩)
    simp only [ptabEntry_eq, Fin.ext_iff]
    omega
  · refine (existsUnique_congr fun i => ?_).1 (h (b.val + 1) (by omega) (by omega))
    rw [ptabEntry_eq, Fin.ext_iff, Nat.add_right_cancel_iff]

end Sys2Proof.Machine

section
open Sys2Proof Sys2Proof.Machine

/-- Settles O34: the sixteen rounds cancel in fours, and the split and the join of either direction swap the halves. -/
theorem constantRoundFunctionSwapsTheHalves : Obligations.ConstantRoundFunctionSwapsTheHalves := by
  unfold Obligations.ConstantRoundFunctionSwapsTheHalves
  exact fun t c k b h => ⟨cipher_of_fround_const h k .enc b, cipher_of_fround_const h k .dec b⟩

/-- Settles O38: the permutation is the bit selection by `PTAB`, whose entries stay in 1..32. -/
theorem permuteSelectsBits : Obligations.PermuteSelectsBits := by
  unfold Obligations.PermuteSelectsBits
  intro t
  exact ⟨fun x i => getLsbD_bitsel x (ptabEntry t) i, ptabEntry_bounds t, bitsel_zero (ptabEntry t),
    bitsel_allOnes fun i => (ptabEntry_bounds t i).1, fun a b => bitsel_xor a b (ptabEntry t)⟩

/-- Settles O39: PERMUTE is a bijection exactly when its selection of bits is one. -/
theorem permuteIsABijectionExactlyForPermutationTables :
    Obligations.PermuteIsABijectionExactlyForPermutationTables := by
  unfold Obligations.PermuteIsABijectionExactlyForPermutationTables
  exact fun t => (permute_bijective_iff t).trans (ptabSelect_bijective_iff t)

end
